-- ==== Sys2Proof/Word.lean ====
section
/-! DEFINITION. The word types of the enigma CORE: bytes of frames, symbols, tables, wirings.
No program counter and no multi-byte quantity exists in this hardware (10_state.md R14, 20_memory.md R32). -/

namespace Sys2Proof

/-- One byte of a command or response frame; also an 8-bit character (30_encoding.md R46, R51). -/
abbrev Byte := BitVec 8

/-- A symbol, 0 (A) to 25 (Z). The values 26 to 31 of a 5-bit port are no symbols
(00_scope.md R6, 30_encoding.md R45), so they cannot be written down here, as decision D3 asks. -/
abbrev Symbol26 := Fin 26

/-- A command or response frame: whole bytes, first byte first (30_encoding.md R50). -/
abbrev Frame := List Byte

/-- The 26 characters of a wiring field; another length cannot be written down (40_rotor_wiring_table.md R72). -/
abbrev Wiring := Vector Byte 26

/-- One plugboard pair as the frame carries it: two plain numbers (30_encoding.md R51). -/
abbrev Pair := Byte × Byte

/-- A lookup table: exactly 26 entries, indexed by a symbol, each a symbol (20_memory.md R30, R35). -/
abbrev Table := Vector Symbol26 26

end Sys2Proof
end

