-- ==== Sys2Proof/Config.lean ====
section
/-! DEFINITION. What an implementation of the enigma CORE fixes: the OPEN parameters of 00_scope.md R5 as a
plain record that every operation takes as an argument (through `State.cfg`), and the fixed parameters by name. -/

namespace Sys2Proof

/-- The OPEN parameters of 00_scope.md R5 (D5, D12). No step writes them. `TIMING` (D1) is read by no rule and
has no field. -/
structure Config where
  /-- `N_MAX`, the greatest rotor count the block can hold, 3 to 255. -/
  nMax : Byte
  /-- `WS`, the character codes passed through as whitespace. -/
  ws : List Byte
  deriving DecidableEq, Repr

namespace Config

/-- `BASE`, the character code of the letter A (00_scope.md R5). -/
def base : Nat := 0x41

/-- `N_MIN`, the least rotor count (00_scope.md R5). -/
def nMin : Nat := 3

/-- The greatest number of disjoint pairs among 26 symbols (10_state.md R12). -/
def pairMax : Nat := 13

/-- `NOTCH_MAX`, the greatest number of notches of one rotor (00_scope.md R5). -/
def notchMax : Nat := 2

/-- A character code of class LETTER (30_encoding.md R46). -/
def isLetter (c : Byte) : Bool := 0x41 ≤ c.toNat && c.toNat ≤ 0x5A

/-- A character code of class DIGIT (30_encoding.md R46). -/
def isDigit (c : Byte) : Bool := 0x30 ≤ c.toNat && c.toNat ≤ 0x39

/-- The ranges the spec states for the OPEN parameters: `3 <= N_MAX <= 255` (R5; the upper bound is the width of
the byte) and `WS` disjoint from LETTER and DIGIT (30_encoding.md R46). -/
def wf (c : Config) : Bool := nMin ≤ c.nMax.toNat && c.ws.all fun w => !isLetter w && !isDigit w

/-- The parameters of `State.reset`: the spec's default `WS` (00_scope.md R5) and `N_MAX = 255`.
DESIGN CHOICE (log 3): the spec gives no `N_MAX`; 255 is the greatest of its range. Unsafe for a claim about runs
from reset that needs a smaller block. -/
def default : Config where
  nMax := 255
  ws := [0x09, 0x0A, 0x0B, 0x0C, 0x0D, 0x20]

end Config

end Sys2Proof
end

