-- ==== Sys2Proof/Syntax.lean ====
section
/-! DEFINITION. The seventeen operations of 30_encoding.md R55, one constructor each, and the two forms in which
they travel: a format H frame and a format U transaction of the micro-operation bus. -/

namespace Sys2Proof

/-- One rotor record `ROT[i]` of a CONFIG frame, which is also the operand set of RBUILD
(30_encoding.md R51, 40_rotor_wiring_table.md R66). -/
structure RotorRecord where
  /-- 26 characters; character `k` is the image of symbol `k` (20_memory.md R32). -/
  w : Wiring
  ring : Byte
  pos : Byte
  /-- Notch valid bits (30_encoding.md R48). -/
  nv : Byte
  n0 : Byte
  n1 : Byte
  deriving DecidableEq, Repr

/-- One constructor per row of the opcode map (30_encoding.md R55). The counts `N`, `P` and `LL` of a frame are the
lengths of the lists they count. -/
inductive Instr where
  /-- Host command 0x01 (45_enigma_engine.md R108): cap, rotor records, reflector wiring, pairs. -/
  | config (cap : Byte) (rots : List RotorRecord) (rw : Wiring) (pairs : List Pair)
  /-- Host command 0x02 (R110): the symbol byte as received. -/
  | encs (ss : Byte)
  /-- Host command 0x03 (R112): the character. -/
  | encc (cc : Byte)
  /-- Host command 0x04 (R113): the characters of the message. -/
  | encm (cs : List Byte)
  /-- Host command 0x05 (R114). -/
  | getpos
  /-- Host command 0x06 (R115): the position bytes, rotor 0 first. -/
  | setpos (ps : List Byte)
  /-- Host command 0x07 (R116). -/
  | getring
  /-- Micro-operation 0x0 (40_rotor_wiring_table.md R66). -/
  | rbuild (i : Byte) (r : RotorRecord)
  /-- Micro-operation 0x1 (41_rotor_signal_path.md R74). -/
  | travf (i : Byte) (x : Symbol26)
  /-- Micro-operation 0x2 (41_rotor_signal_path.md R75). -/
  | travb (i : Byte) (x : Symbol26)
  /-- Micro-operation 0x3 (42_rotor_stepper.md R81). -/
  | notchq (i : Byte)
  /-- Micro-operation 0x4 (42_rotor_stepper.md R82). -/
  | rstep (i : Byte)
  /-- Micro-operation 0x5 (42_rotor_stepper.md R83). -/
  | sstep
  /-- Micro-operation 0x6 (43_reflector_path.md R92). -/
  | fbuild (rw : Wiring)
  /-- Micro-operation 0x7 (43_reflector_path.md R93). -/
  | refl (x : Symbol26)
  /-- Micro-operation 0x8 (44_plugboard_substitution.md R98). -/
  | pbuild (cap : Byte) (pairs : List Pair)
  /-- Micro-operation 0x9 (44_plugboard_substitution.md R102). -/
  | plug (x : Symbol26)
  deriving DecidableEq, Repr

/-- One transaction of the internal micro-operation bus: the 4-bit select and the operand ports of the units
(30_encoding.md R54). A unit reads only its own ports. -/
structure MicroOp where
  uop : BitVec 4
  i : Byte
  s : BitVec 5
  w : Wiring
  ring : Byte
  pos : Byte
  nv : Byte
  n0 : Byte
  n1 : Byte
  rw : Wiring
  cap : Byte
  pairs : List Pair
  deriving DecidableEq, Repr

/-- A transaction with the given select and every operand port at zero. -/
def MicroOp.bare (uop : BitVec 4) : MicroOp :=
  { uop, i := 0, s := 0, w := Vector.replicate 26 0, ring := 0, pos := 0, nv := 0, n0 := 0, n1 := 0,
    rw := Vector.replicate 26 0, cap := 0, pairs := [] }

/-- The two formats of 30_encoding.md R50: a frame of the command port, or a transaction of the micro-operation bus. -/
inductive Encoded where
  | frame (f : Frame)
  | micro (m : MicroOp)
  deriving DecidableEq, Repr

/-- Format H, the seven operations a host can ask for (30_encoding.md R50, R55). -/
def Instr.isHost : Instr → Bool
  | .config _ _ _ _ => true
  | .encs _ => true
  | .encc _ => true
  | .encm _ => true
  | .getpos => true
  | .setpos _ => true
  | .getring => true
  | .rbuild _ _ => false
  | .travf _ _ => false
  | .travb _ _ => false
  | .notchq _ => false
  | .rstep _ => false
  | .sstep => false
  | .fbuild _ => false
  | .refl _ => false
  | .pbuild _ _ => false
  | .plug _ => false

end Sys2Proof
end

