-- ==== Sys2Proof/WellFormed.lean ====
section
/-! DEFINITION. Which terms of `Instr` an encoding can carry: the counts fit their one-byte fields and the reserved
bits of a CONFIG record are clear. -/

namespace Sys2Proof

/-- `nv[7:2]` of a rotor record is 0 (30_encoding.md R48, R51, R56 item 4). -/
def RotorRecord.reservedClear (r : RotorRecord) : Bool := r.nv.toNat < 4

/-- A count that travels in one byte (30_encoding.md R51, R52). -/
def countFits (n : Nat) : Bool := n ≤ 255

/-- Every count fits its field and the reserved bits of a frame are 0. Ranges that the hardware itself reports
(ring, position, notch, symbol, pair) are no matter of form: such an instruction is well formed and is answered with
its error (30_encoding.md R59, R56 item 7). -/
def Instr.wf : Instr → Bool
  | .config _ rots _ pairs => countFits rots.length && countFits pairs.length && rots.all RotorRecord.reservedClear
  | .encs _ => true
  | .encc _ => true
  | .encm cs => countFits cs.length
  | .getpos => true
  | .setpos ps => countFits ps.length
  | .getring => true
  | .rbuild _ _ => true
  | .travf _ _ => true
  | .travb _ _ => true
  | .notchq _ => true
  | .rstep _ => true
  | .sstep => true
  | .fbuild _ => true
  | .refl _ => true
  | .pbuild _ pairs => countFits pairs.length
  | .plug _ => true

end Sys2Proof
end

