-- ==== Sys2Proof/Decode.lean ====
section
/-! DEFINITION. The decoder of format H frames (30_encoding.md R51, R52, R56, R57) and of micro-operation
transactions (R54), both total and rejecting by name; after them the encoder, and the host's table words. -/

namespace Sys2Proof

/-- The symbol a number stands for; none outside 0 to 25 (30_encoding.md R45). -/
def symbolOfNat? (n : Nat) : Option Symbol26 := if h : n < 26 then some ⟨n, h⟩ else none

/-! ### Format H -/

/-- Why a frame is no host command (30_encoding.md R56). -/
inductive Reject where
  /-- Item 1: no byte at all. -/
  | emptyFrame
  /-- Item 1: byte 0 is not 0x01 to 0x07. -/
  | unknownOpcode
  /-- Item 3: the length is not the one R57 gives for this opcode and its counts. -/
  | wrongLength (op : Byte)
  /-- Item 4: a rotor record with `nv[7:2]` not 0. -/
  | reservedBits
  deriving DecidableEq, Repr

/-- The 26 characters at the head of the bytes, and the rest. -/
def takeWiring (b : Frame) : Option (Wiring × Frame) :=
  if h : 26 ≤ b.length then some (⟨(b.take 26).toArray, by simp [h]⟩, b.drop 26) else none

/-- One rotor record of 31 bytes (30_encoding.md R51), and the rest. -/
def takeRecord (b : Frame) : Option (RotorRecord × Frame) :=
  match takeWiring b with
  | some (w, ring :: pos :: nv :: n0 :: n1 :: rest) => some (⟨w, ring, pos, nv, n0, n1⟩, rest)
  | _ => none

/-- `n` rotor records, rotor 0 first, and the rest. -/
def takeRecords : Nat → Frame → Option (List RotorRecord × Frame)
  | 0, b => some ([], b)
  | n + 1, b =>
    match takeRecord b with
    | none => none
    | some (r, b') =>
      match takeRecords n b' with
      | none => none
      | some (rs, b'') => some (r :: rs, b'')

/-- `p` pairs of two bytes, and the rest. -/
def takePairs : Nat → Frame → Option (List Pair × Frame)
  | 0, b => some ([], b)
  | p + 1, x :: y :: b =>
    match takePairs p b with
    | none => none
    | some (ps, b') => some ((x, y) :: ps, b')
  | _ + 1, _ => none

/-- The operands of CONFIG after its opcode byte; none when the length is not `30 + 31*N + 2*P`
(30_encoding.md R51, R57). -/
def takeConfig (b : Frame) : Option (Byte × List RotorRecord × Wiring × List Pair) :=
  match b with
  | n :: cap :: b =>
    match takeRecords n.toNat b with
    | none => none
    | some (rots, b) =>
      match takeWiring b with
      | some (rw, p :: b) =>
        match takePairs p.toNat b with
        | some (pairs, []) => some (cap, rots, rw, pairs)
        | _ => none
      | _ => none
  | _ => none

/-- The decoder of format H: every byte string gets exactly one verdict (30_encoding.md R56). The length of SETPOS
depends on the register `N`, so a frame of any length that some `N` gives is decoded and its meaning checks it. -/
def decode (f : Frame) : Except Reject Instr :=
  match f with
  | [] => .error .emptyFrame
  | op :: b =>
    match op.toNat with
    | 0x01 =>
      match takeConfig b with
      | none => .error (.wrongLength op)
      | some (cap, rots, rw, pairs) =>
        if rots.all RotorRecord.reservedClear then .ok (.config cap rots rw pairs) else .error .reservedBits
    | 0x02 =>
      match b with
      | [ss] => .ok (.encs ss)
      | _ => .error (.wrongLength op)
    | 0x03 =>
      match b with
      | [cc] => .ok (.encc cc)
      | _ => .error (.wrongLength op)
    | 0x04 =>
      match b with
      | ll :: cs => if cs.length = ll.toNat then .ok (.encm cs) else .error (.wrongLength op)
      | [] => .error (.wrongLength op)
    | 0x05 =>
      match b with
      | [] => .ok .getpos
      | _ => .error (.wrongLength op)
    | 0x06 => if countFits b.length then .ok (.setpos b) else .error (.wrongLength op)
    | 0x07 =>
      match b with
      | [] => .ok .getring
      | _ => .error (.wrongLength op)
    | _ => .error .unknownOpcode

/-! ### Format U -/

/-- Why a transaction of the exposed bus is no micro-operation. -/
inductive MicroReject where
  /-- Select 0xA to 0xF (30_encoding.md R54). -/
  | reservedSelect
  /-- A 5-bit symbol port at 26 to 31 (30_encoding.md R45). -/
  | symbolRange
  /-- More pairs than the 8-bit count `P` can say (44_plugboard_substitution.md R98). -/
  | pairCount
  deriving DecidableEq, Repr

/-- The symbol on the 5-bit port `s`, handed to the operation that reads it. -/
def withSymbolPort (m : MicroOp) (k : Symbol26 → Instr) : Except MicroReject Instr :=
  match symbolOfNat? m.s.toNat with
  | none => .error .symbolRange
  | some x => .ok (k x)

/-- The decoder of format U, by the select (30_encoding.md R54). -/
def decodeMicro (m : MicroOp) : Except MicroReject Instr :=
  match m.uop.toNat with
  | 0x0 => .ok (.rbuild m.i ⟨m.w, m.ring, m.pos, m.nv, m.n0, m.n1⟩)
  | 0x1 => withSymbolPort m (.travf m.i)
  | 0x2 => withSymbolPort m (.travb m.i)
  | 0x3 => .ok (.notchq m.i)
  | 0x4 => .ok (.rstep m.i)
  | 0x5 => .ok .sstep
  | 0x6 => .ok (.fbuild m.rw)
  | 0x7 => withSymbolPort m .refl
  | 0x8 => if countFits m.pairs.length then .ok (.pbuild m.cap m.pairs) else .error .pairCount
  | 0x9 => withSymbolPort m .plug
  | _ => .error .reservedSelect

/-- Either format, by the channel it came on; none where that channel's decoder rejects. -/
def decodeEncoded : Encoded → Option Instr
  | .frame f => (decode f).toOption
  | .micro m => (decodeMicro m).toOption

/-! ### The encoder -/

/-- The 31 bytes of a rotor record (30_encoding.md R51). -/
def RotorRecord.bytes (r : RotorRecord) : Frame := r.w.toList ++ [r.ring, r.pos, r.nv, r.n0, r.n1]

/-- The two bytes of a pair (30_encoding.md R51). -/
def pairBytes (p : Pair) : Frame := [p.1, p.2]

/-- A one-byte count field. -/
def countByte (n : Nat) : Byte := BitVec.ofNat 8 n

/-- A symbol on a 5-bit port (30_encoding.md R45). -/
def symbolBits (x : Symbol26) : BitVec 5 := BitVec.ofNat 5 x.val

/-- The words of an instruction: its frame (30_encoding.md R51, R52) or its bus transaction (R54). -/
def encode : Instr → Encoded
  | .config cap rots rw pairs =>
    .frame ([0x01, countByte rots.length, cap] ++ rots.flatMap RotorRecord.bytes ++ rw.toList
      ++ [countByte pairs.length] ++ pairs.flatMap pairBytes)
  | .encs ss => .frame [0x02, ss]
  | .encc cc => .frame [0x03, cc]
  | .encm cs => .frame (0x04 :: countByte cs.length :: cs)
  | .getpos => .frame [0x05]
  | .setpos ps => .frame (0x06 :: ps)
  | .getring => .frame [0x07]
  | .rbuild i r =>
    .micro { MicroOp.bare 0x0 with i, w := r.w, ring := r.ring, pos := r.pos, nv := r.nv, n0 := r.n0, n1 := r.n1 }
  | .travf i x => .micro { MicroOp.bare 0x1 with i, s := symbolBits x }
  | .travb i x => .micro { MicroOp.bare 0x2 with i, s := symbolBits x }
  | .notchq i => .micro { MicroOp.bare 0x3 with i }
  | .rstep i => .micro { MicroOp.bare 0x4 with i }
  | .sstep => .micro (MicroOp.bare 0x5)
  | .fbuild rw => .micro { MicroOp.bare 0x6 with rw }
  | .refl x => .micro { MicroOp.bare 0x7 with s := symbolBits x }
  | .pbuild cap pairs => .micro { MicroOp.bare 0x8 with cap, pairs }
  | .plug x => .micro { MicroOp.bare 0x9 with s := symbolBits x }

/-! ### Words numbered as spec/opcode_table.json numbers them -/

/-- The bytes of a table word, bits 7..0 first. -/
def tableBytes (nbits w : Nat) : Frame := (List.range (nbits / 8)).map fun k => BitVec.ofNat 8 (w >>> (8 * k))

/-- The frame length R57 gives, absent bytes read as 0. For SETPOS, whose length is a matter of the register `N`,
three positions: the least legal rotor count (log 12). -/
def zeroPaddedLength (b : Frame) : Nat :=
  match (b.getD 0 0).toNat with
  | 0x01 => 30 + 31 * (b.getD 1 0).toNat + 2 * (b.getD (29 + 31 * (b.getD 1 0).toNat) 0).toNat
  | 0x02 => 2
  | 0x03 => 2
  | 0x04 => 2 + (b.getD 1 0).toNat
  | 0x06 => 1 + Config.nMin
  | _ => 1

/-- The frame of a table word: its bytes, then operand bytes of zero up to the frame's length. -/
def tableFrame (nbits w : Nat) : Frame :=
  tableBytes nbits w ++ List.replicate (zeroPaddedLength (tableBytes nbits w) - (tableBytes nbits w).length) 0

/-- Byte 0 is an opcode of format H (30_encoding.md R56 item 1). -/
def isHostOpcode (op : Nat) : Bool := 1 ≤ op && op ≤ 7

/-- The channel of a table word (log 12). A word of at least 8 bits whose low byte is a host opcode is a frame; any
other word below 16 is a micro-operation select with operands of zero. The table numbers both formats from bit 0 and
gives a select 4 bits, so a word of 8 bits does not tell TRAVF (0x1) from CONFIG (0x01). -/
def tableEncoded (nbits w : Nat) : Encoded :=
  if 8 ≤ nbits && isHostOpcode (w % 256) then .frame (tableFrame nbits w)
  else if w < 16 then .micro (MicroOp.bare (BitVec.ofNat 4 w))
  else .frame (tableBytes nbits w)

/-- The instruction this decoder reads from a table word. -/
def decodeTableWord (nbits w : Nat) : Option Instr := decodeEncoded (tableEncoded nbits w)

end Sys2Proof
end

