-- ==== Sys2Proof/Machine/State.lean ====
section
/-! DEFINITION. The state of one enigma CORE block (10_state.md R10, R21), its interface to the host (30_encoding.md
R64), the status codes by name (60_exceptions.md R126), and the state after reset (70_reset_and_hazards.md R147). -/

namespace Sys2Proof.Machine

/-- The status of a response, by name (60_exceptions.md R126). `unknownLabel` and `malformedPair` belong to the
assembler and are raised by no operation of the hardware. -/
inductive Status where
  | ok
  | invalidWiring
  | duplicateWiring
  | invalidPosition
  | invalidNotch
  | invalidRingSetting
  | tooFewRotors
  | unknownLabel
  | tooManyPairs
  | selfPair
  | outOfRange
  | reused
  | malformedPair
  | unencodable
  | notConfigured
  | illegalSymbol
  | illegalCommand
  | capacityExceeded
  deriving DecidableEq, Repr

/-- The state of one rotor `i`: `POS[i]`, `RING[i]`, `NOTCH[i]`, `FWD[i]`, `BWD[i]` (10_state.md R13, R15, R16, R17). -/
structure Rotor where
  /-- `POS[i]`, the current rotation position. -/
  pos : Symbol26
  /-- `RING[i]`, the ring setting; read by GETRING only. -/
  ring : Symbol26
  /-- `NOTCH[i]`, the notch set as a mask: bit `p` is 1 iff `p` is a notch position. -/
  notch : BitVec 26
  /-- `FWD[i]`, the forward table, ring setting already applied. -/
  fwd : Table
  /-- `BWD[i]`, the backward table. -/
  bwd : Table
  deriving DecidableEq, Repr

/-- The machine that exists while `LC = READY` (10_state.md R10, R23). -/
structure Enigma where
  /-- `N`, the rotor count. -/
  n : Byte
  /-- `PAIR_CAP`, the cap CONFIG supplied; kept only so that what was configured can be stated (10_state.md R12). -/
  pairCap : Byte
  /-- The stack, rotor 0 first. -/
  rotors : List Rotor
  /-- `REFL`, the reflector table. -/
  refl : Table
  /-- `PLUG`, the plugboard table. -/
  plug : Table
  deriving DecidableEq, Repr

/-- `LC` (10_state.md R11): UNCONFIGURED, where nothing else holds a value (R24), or READY with the machine that
exists. Tables exist only inside READY (20_memory.md R42). -/
inductive Life where
  | unconfigured
  | ready (m : Enigma)
  deriving DecidableEq, Repr

/-- The staging copy of every table and register written during CONFIG (10_state.md R21 item 3): what RBUILD, FBUILD
and PBUILD have built so far at the exposed bus (log 2). No host command reads it. An
accepted CONFIG and a reset empty it. -/
structure Staging where
  /-- Slot `i` holds rotor `i` once RBUILD has built it. -/
  rotors : List (Option Rotor)
  refl : Option Table
  plug : Option Table
  pairCap : Option Byte
  deriving DecidableEq, Repr

/-- Nothing built (10_state.md R21). -/
def Staging.empty : Staging := { rotors := [], refl := none, plug := none, pairCap := none }

/-- What a unit returns on its result port (30_encoding.md R54, column "result"). -/
inductive UnitResult where
  /-- No result, or OK of a build. -/
  | done
  /-- The 1-bit result of NOTCHQ. -/
  | bit (b : Bool)
  /-- A 5-bit symbol. -/
  | symbol (x : Symbol26)
  /-- The ConfigurationError or PlugboardError of a build. -/
  | error (e : Status)
  deriving DecidableEq, Repr

/-- What the host does to the block (00_scope.md R9, 30_encoding.md R64): a command frame on the command port, or a
pulse of the reset pin `rst` (70_reset_and_hazards.md R146). -/
inductive Input where
  | frame (f : Frame)
  | rst
  deriving DecidableEq, Repr

/-- One block with its interface. -/
structure State where
  /-- The OPEN parameters (00_scope.md R5); no step writes them. -/
  cfg : Config
  /-- `LC`, with the machine that exists in READY. -/
  lc : Life
  /-- What builds issued alone at the exposed bus have staged (10_state.md R21 item 3; log 2). -/
  staging : Staging
  /-- The model's own: what the host has yet to present, first first (log 4). -/
  inputs : List Input
  /-- The model's own: the response frames returned so far, oldest first (log 4). -/
  rsp : List Frame
  /-- The model's own: transactions placed on the exposed micro-operation bus (log 5). -/
  bus : List MicroOp
  /-- The model's own: the result of the last micro-operation taken from the exposed bus (log 5). -/
  busResult : Option UnitResult
  deriving DecidableEq, Repr

/-- Why the machine stops. Each is a case for which the spec has no behaviour at all; each is reached only from the
exposed micro-operation bus, never by a host command (log 11). -/
inductive Fault where
  /-- Raised by TRAVF, TRAVB, NOTCHQ, RSTEP, SSTEP, REFL, PLUG while `LC = UNCONFIGURED`: a read of a table or
  register that holds no value (20_memory.md R42, 10_state.md R24, 93_implementation_defined.md U5). Safe. -/
  | unbuilt
  /-- Raised by TRAVF, TRAVB, NOTCHQ, RSTEP with `i >= N` and by RBUILD with `i >= N_MAX`: there is no such rotor
  (10_state.md R13, 40_rotor_wiring_table.md R66). Safe. -/
  | noRotor
  /-- Raised by the bus decoder on a select 0xA to 0xF, "never issued by the engine" (30_encoding.md R54; stuck by
  93_implementation_defined.md U8). Safe. -/
  | reservedSelect
  /-- Raised by the bus decoder on a value no port carries: a symbol 26 to 31 (93_implementation_defined.md U3) or more
  pairs than `P` can count. Safe. -/
  | portRange
  deriving DecidableEq, Repr

/-- Why the model has no meaning for an instruction. -/
inductive Refusal where
  /-- Raised by an arm of `exec` whose instruction has no meaning yet. Safe. -/
  | notModelled (mnemonic : String)
  deriving DecidableEq, Repr

/-- The outcome of one operation or one step. -/
abbrev Result := Host.Outcome State Fault Refusal

/-- The machine right after reset (70_reset_and_hazards.md R146, R147): `LC = UNCONFIGURED` and nothing else holds a
value. The interface is empty (log 4, log 5) and the parameters are those of `Config.default` (log 3). -/
def State.reset : State :=
  { cfg := Config.default, lc := .unconfigured, staging := Staging.empty, inputs := [], rsp := [], bus := [],
    busResult := none }

end Sys2Proof.Machine
end

