-- ==== Sys2Proof/Machine/Operands.lean ====
section
/-! DEFINITION. Every operand form of the spec: reduction modulo 26 and the effective index, symbols in bytes,
character classes, notch slots. -/

namespace Sys2Proof.Machine

/-- `mod26(v)`: the unique remainder 0 to 25, for negative `v` too (00_scope.md R7, R8). -/
def mod26 (v : Int) : Symbol26 := ⟨(v % 26).toNat, by omega⟩

/-- The effective index of a rotor table, `mod26(s + POS[i])` (20_memory.md R31). -/
def effectiveIndex (x pos : Symbol26) : Symbol26 := mod26 (x.val + pos.val)

/-- `zext_8` of a symbol (30_encoding.md R45). -/
def zext8 (x : Symbol26) : Byte := BitVec.ofNat 8 x.val

/-- The symbol of a byte that must be 0 to 25; none above (30_encoding.md R51, range checks on the full 8-bit value). -/
def symbolOfByte? (b : Byte) : Option Symbol26 := symbolOfNat? b.toNat

/-- The symbols of a list of bytes; none if any byte is above 25 (45_enigma_engine.md R115, checked for all). -/
def symbolsOfBytes? : List Byte → Option (List Symbol26)
  | [] => some []
  | b :: bs =>
    match symbolOfByte? b with
    | none => none
    | some x =>
      match symbolsOfBytes? bs with
      | none => none
      | some xs => some (x :: xs)

/-! ### Characters (30_encoding.md R46) -/

/-- The symbol `c - 0x41` of a letter; none outside 0x41 to 0x5A. -/
def letterSymbol? (c : Byte) : Option Symbol26 := if Config.isLetter c then symbolOfNat? (c.toNat - Config.base) else none

/-- The letter `0x41 + y` of a symbol. -/
def symbolLetter (y : Symbol26) : Byte := BitVec.ofNat 8 (Config.base + y.val)

/-- The class of a character code; a LETTER carries its symbol. -/
inductive CharClass where
  | letter (x : Symbol26)
  | digit
  | space
  | other
  deriving DecidableEq, Repr

/-- Every character code falls in exactly one class (30_encoding.md R46). -/
def classify (cfg : Config) (c : Byte) : CharClass :=
  match letterSymbol? c with
  | some x => .letter x
  | none => if Config.isDigit c then .digit else if cfg.ws.contains c then .space else .other

/-! ### Notch slots (30_encoding.md R48) -/

/-- A slot that is valid and holds no position; a slot whose valid bit is 0 is not range-checked. -/
def slotOutOfRange (valid : Bool) (p : Byte) : Bool := valid && decide (25 < p.toNat)

/-- The bit of one slot in the mask, nothing for a slot that is not valid. -/
def slotMask (valid : Bool) (p : Byte) : BitVec 26 := if valid then 1#26 <<< p.toNat else 0#26

/-- `NOTCH[i]` from the two slots (40_rotor_wiring_table.md R69). -/
def notchMask (nv n0 n1 : Byte) : BitVec 26 := slotMask (nv.getLsbD 0) n0 ||| slotMask (nv.getLsbD 1) n1

end Sys2Proof.Machine
end

