-- ==== Sys2Proof/Machine/Ops.lean ====
section
/-! DEFINITION. The named operations over tables, markers, the rotor stack, the response port and the lifecycle. Raising
an error is ONE operation, `State.raise`; there is no return from it (60_exceptions.md R133, R136). -/

namespace Sys2Proof.Machine

/-! ### Tables (00_scope.md R7, 20_memory.md R34) -/

/-- `MemRead(T, a)`: one entry. -/
def memRead (t : Table) (a : Symbol26) : Symbol26 := t[a.val]

/-- `MemWrite(T, a, v)`: one entry; only build rules use it. -/
def memWrite (t : Table) (a v : Symbol26) : Table := t.set a.val v

/-- The storage a build starts from. Every build writes all 26 entries (20_memory.md R34), so nothing rests on it. -/
def blankTable : Table := Vector.replicate 26 0

/-- The identity table, entry by entry (44_plugboard_substitution.md R99). -/
def identityTable : Table := (List.finRange 26).foldl (fun t x => memWrite t x x) blankTable

/-! ### Markers: `FILLED` and `USED` (10_state.md R21) -/

/-- 26 one-bit markers, one a symbol. -/
abbrev Marks := Vector Bool 26

/-- All markers are 0 when a build starts. -/
def noMarks : Marks := Vector.replicate 26 false

/-- A marker is 1. -/
def marked (ms : Marks) (x : Symbol26) : Bool := ms[x.val]

/-- Set a marker. -/
def mark (ms : Marks) (x : Symbol26) : Marks := ms.set x.val true

/-- The wiring scan (40_rotor_wiring_table.md R67, 43_reflector_path.md R92): ascending, the range test before the
duplicate test, the first offending character decides. Answers `RAW`, the images in index order. -/
def scanLetters : List Byte → Marks → Except Status (List Symbol26)
  | [], _ => .ok []
  | c :: cs, filled =>
    match letterSymbol? c with
    | none => .error .invalidWiring
    | some t =>
      if marked filled t then .error .duplicateWiring
      else
        match scanLetters cs (mark filled t) with
        | .error e => .error e
        | .ok raw => .ok (t :: raw)

/-- The scan of one 26-character wiring. -/
def scanWiring (w : Wiring) : Except Status (List Symbol26) := scanLetters w.toList noMarks

/-! ### The response port (30_encoding.md R53) -/

/-- The status byte (60_exceptions.md R126). -/
def Status.code : Status → Byte
  | .ok => 0x00
  | .invalidWiring => 0x10
  | .duplicateWiring => 0x11
  | .invalidPosition => 0x12
  | .invalidNotch => 0x13
  | .invalidRingSetting => 0x14
  | .tooFewRotors => 0x15
  | .unknownLabel => 0x16
  | .tooManyPairs => 0x20
  | .selfPair => 0x21
  | .outOfRange => 0x22
  | .reused => 0x23
  | .malformedPair => 0x24
  | .unencodable => 0x30
  | .notConfigured => 0x40
  | .illegalSymbol => 0x41
  | .illegalCommand => 0x42
  | .capacityExceeded => 0x43

/-- Return one response frame, after those already returned. -/
def State.respond (s : State) (f : Frame) : State := { s with rsp := s.rsp ++ [f] }

/-- Status OK with the result bytes. -/
def State.answer (s : State) (bytes : List Byte) : State := s.respond (Status.ok.code :: bytes)

/-- Raise an error: the response is the status byte alone, and nothing else changes (60_exceptions.md R126, R133). No
handler, no saved state, no vector. What a failing command undoes besides, its meaning does first. -/
def State.raise (s : State) (e : Status) : State := s.respond [e.code]

/-- The result of a micro-operation, on the unit's result port (30_encoding.md R54). -/
def State.unitReturn (s : State) (r : UnitResult) : State := { s with busResult := some r }

/-! ### The lifecycle (10_state.md R11) -/

/-- Install the machine: `LC = READY` (10_state.md R11). -/
def State.setMachine (s : State) (m : Enigma) : State := { s with lc := .ready m }

/-- `LC <- UNCONFIGURED`: any machine, and any staging copy, ceases to exist (45_enigma_engine.md R108,
60_exceptions.md R135). -/
def State.destroy (s : State) : State := { s with lc := .unconfigured, staging := Staging.empty }

/-- Reset (70_reset_and_hazards.md R146): everything the block holds ceases to exist. What the host has received and
has yet to present is the host's, and stays. -/
def State.applyRst (s : State) : State := { s.destroy with bus := [], busResult := none }

/-- A host command other than CONFIG: refused with NotConfigured while no machine exists (10_state.md R11,
30_encoding.md R56 item 2). -/
def State.whenReady (s : State) (k : Enigma → Result) : Result :=
  match s.lc with
  | .unconfigured => .next (s.raise .notConfigured)
  | .ready m => k m

/-- A micro-operation that reads the machine: no behaviour on a machine that does not exist (20_memory.md R42, 10_state.md
R24, 93_implementation_defined.md U5). -/
def State.withMachine (s : State) (k : Enigma → Result) : Result :=
  match s.lc with
  | .unconfigured => .fault .unbuilt
  | .ready m => k m

/-- The rotors `0 .. N-1`, in stack order. -/
def Enigma.stack (m : Enigma) : List Rotor := m.rotors.take m.n.toNat

/-- A micro-operation on rotor `i`, which must be below `N` (30_encoding.md R54). -/
def State.withRotor (s : State) (i : Byte) (k : Enigma → Rotor → Result) : Result :=
  s.withMachine fun m =>
    match m.stack[i.toNat]? with
    | none => .fault .noRotor
    | some r => k m r

/-! ### The staging copy (10_state.md R21 item 3) -/

/-- Write slot `i`; slots below it that nothing has written stay empty. -/
def setSlot : Nat → Rotor → List (Option Rotor) → List (Option Rotor)
  | 0, r, [] => [some r]
  | 0, r, _ :: l => some r :: l
  | i + 1, r, [] => none :: setSlot i r []
  | i + 1, r, o :: l => o :: setSlot i r l

/-- The outcome of a build micro-operation: the new staging copy and OK, or nothing built at all and the error
(60_exceptions.md R135). DESIGN CHOICE (log 2): R135 gives `LC = UNCONFIGURED` for CONFIG only, and a build that raises
when issued alone at the exposed bus empties the staging copy and leaves `LC`, and any machine that exists, as they are. -/
def State.finishBuild (s : State) (r : Except Status Staging) : State :=
  match r with
  | .ok st => { s with staging := st, busResult := some .done }
  | .error e => { s with staging := Staging.empty, busResult := some (.error e) }

end Sys2Proof.Machine
end

