-- ==== Sys2Proof/Machine/PlugboardSubstitution.lean ====
section
/-! DEFINITION. The sub-block `plugboard_substitution`: PBUILD and PLUG (44_plugboard_substitution.md). -/

namespace Sys2Proof.Machine

/-- The pairs in list order; for each the tests SelfPair, OutOfRange of the first symbol, OutOfRange of the second,
Reused, then both entries (44_plugboard_substitution.md R99, R101). -/
def placePairs : List Pair → Marks → Table → Except Status Table
  | [], _, t => .ok t
  | (a, b) :: ps, used, t =>
    if a = b then .error .selfPair
    else
      match symbolOfByte? a with
      | none => .error .outOfRange
      | some x =>
        match symbolOfByte? b with
        | none => .error .outOfRange
        | some y =>
          if marked used x || marked used y then .error .reused
          else placePairs ps (mark (mark used x) y) (memWrite (memWrite t x y) y x)

/-- The plugboard table: the cap test before any pair is looked at (44_plugboard_substitution.md R99). -/
def buildPlugboard (cap : Byte) (pairs : List Pair) : Except Status Table :=
  if cap.toNat < pairs.length then .error .tooManyPairs else placePairs pairs noMarks identityTable

/-- Build the plugboard and `PAIR_CAP` into the staging copy. -/
def Staging.pbuild (st : Staging) (cap : Byte) (pairs : List Pair) : Except Status Staging :=
  match buildPlugboard cap pairs with
  | .error e => .error e
  | .ok t => .ok { st with plug := some t, pairCap := some cap }

/-- PBUILD (44_plugboard_substitution.md R98, R99). -/
def execPbuild (cap : Byte) (pairs : List Pair) (s : State) : Result :=
  .next (s.finishBuild (s.staging.pbuild cap pairs))

/-- The plugboard pass of a machine (44_plugboard_substitution.md R102). -/
def Enigma.plugPass (m : Enigma) (x : Symbol26) : Symbol26 := memRead m.plug x

/-- PLUG (44_plugboard_substitution.md R102): one entry, no direction. -/
def execPlug (x : Symbol26) (s : State) : Result :=
  s.withMachine fun m => .next (s.unitReturn (.symbol (m.plugPass x)))

end Sys2Proof.Machine
end

