-- ==== Sys2Proof/Machine/ReflectorPath.lean ====
section
/-! DEFINITION. The sub-block `reflector_path`: FBUILD and REFL (43_reflector_path.md). -/

namespace Sys2Proof.Machine

/-- `MemWrite(REFL, k, t)` for the images from index `k` up (43_reflector_path.md R92). -/
def fillPlain : Nat → List Symbol26 → Table → Table
  | _, [], t => t
  | k, y :: raw, t => fillPlain (k + 1) raw (memWrite t (mod26 k) y)

/-- The reflector table: the wiring as given, validated as a rotor wiring is, with no check of an involution or of
fixed points (43_reflector_path.md R92, R94). -/
def buildReflector (rw : Wiring) : Except Status Table :=
  match scanWiring rw with
  | .error e => .error e
  | .ok raw => .ok (fillPlain 0 raw blankTable)

/-- Build the reflector into the staging copy. -/
def Staging.fbuild (st : Staging) (rw : Wiring) : Except Status Staging :=
  match buildReflector rw with
  | .error e => .error e
  | .ok t => .ok { st with refl := some t }

/-- FBUILD (43_reflector_path.md R92). -/
def execFbuild (rw : Wiring) (s : State) : Result := .next (s.finishBuild (s.staging.fbuild rw))

/-- The reflector pass of a machine (43_reflector_path.md R93). -/
def Enigma.reflect (m : Enigma) (x : Symbol26) : Symbol26 := memRead m.refl x

/-- REFL (43_reflector_path.md R93): one entry, no position, no direction. -/
def execRefl (x : Symbol26) (s : State) : Result :=
  s.withMachine fun m => .next (s.unitReturn (.symbol (m.reflect x)))

end Sys2Proof.Machine
end

