-- ==== Sys2Proof/Machine/RotorSignalPath.lean ====
section
/-! DEFINITION. The sub-block `rotor_signal_path`: TRAVF and TRAVB (41_rotor_signal_path.md). -/

namespace Sys2Proof.Machine

/-- One crossing of a rotor through the given table: add the position, look up, subtract the position
(41_rotor_signal_path.md R74, R75; the direction selects the table only). -/
def traverse (t : Table) (pos x : Symbol26) : Symbol26 :=
  mod26 ((memRead t (effectiveIndex x pos)).val - pos.val)

/-- TRAVF on a rotor (`dir = 0`). -/
def Rotor.travf (r : Rotor) (x : Symbol26) : Symbol26 := traverse r.fwd r.pos x

/-- TRAVB on a rotor (`dir = 1`). -/
def Rotor.travb (r : Rotor) (x : Symbol26) : Symbol26 := traverse r.bwd r.pos x

/-- TRAVF (41_rotor_signal_path.md R74): returns the symbol, writes nothing. -/
def execTravf (i : Byte) (x : Symbol26) (s : State) : Result :=
  s.withRotor i fun _ r => .next (s.unitReturn (.symbol (r.travf x)))

/-- TRAVB (41_rotor_signal_path.md R75). -/
def execTravb (i : Byte) (x : Symbol26) (s : State) : Result :=
  s.withRotor i fun _ r => .next (s.unitReturn (.symbol (r.travb x)))

end Sys2Proof.Machine
end

