-- ==== Sys2Proof/Machine/Flags.lean ====
section
/-! DEFINITION. The only flags of the hardware: the four 1-bit signals of one run of SSTEP (10_state.md R20). They live
inside that run and no longer, so no field of State holds them. -/

namespace Sys2Proof.Machine

/-- `NOTCH[i][POS[i]]`: the rotor stands on one of its notches (42_rotor_stepper.md R81). The ring setting plays no
part. -/
def Rotor.engaged (r : Rotor) : Bool := r.notch.getLsbD r.pos.val

/-- The engagement of rotor `i` of the stack. -/
def engagedAt (rs : List Rotor) (i : Nat) : Bool := (rs[i]?).any Rotor.engaged

/-- `eng0`, `eng1`, `sched1`, `sched2` (10_state.md R20). -/
structure StepFlags where
  eng0 : Bool
  eng1 : Bool
  sched1 : Bool
  sched2 : Bool
  deriving DecidableEq, Repr

/-- Both engagements are sampled before any rotor moves; a schedule is a flag, not a count (42_rotor_stepper.md R83,
R84). -/
def sampleFlags (rs : List Rotor) : StepFlags :=
  { eng0 := engagedAt rs 0
    eng1 := engagedAt rs 1
    sched1 := engagedAt rs 0 || engagedAt rs 1
    sched2 := engagedAt rs 1 }

end Sys2Proof.Machine
end

