-- ==== Sys2Proof/Machine/RotorStepper.lean ====
section
/-! DEFINITION. The sub-block `rotor_stepper`: NOTCHQ, RSTEP, SSTEP (42_rotor_stepper.md). -/

namespace Sys2Proof.Machine

/-- `POS[i] <- mod26(POS[i] + 1)` (42_rotor_stepper.md R82). -/
def Rotor.step (r : Rotor) : Rotor := { r with pos := mod26 (r.pos.val + 1) }

/-- RSTEP of one rotor of the stack. -/
def stepAt (i : Nat) (rs : List Rotor) : List Rotor := rs.modify i Rotor.step

/-- SSTEP on the stack (42_rotor_stepper.md R83): sample, then step rotor 0, rotor 1 if scheduled, rotor 2 if
scheduled. -/
def stepStack (rs : List Rotor) : List Rotor :=
  let flags := sampleFlags rs
  let rs := stepAt 0 rs
  let rs := if flags.sched1 then stepAt 1 rs else rs
  if flags.sched2 then stepAt 2 rs else rs

/-- The machine after one SSTEP. -/
def Enigma.sstep (m : Enigma) : Enigma := { m with rotors := stepStack m.rotors }

/-- NOTCHQ (42_rotor_stepper.md R81): returns one bit, writes nothing. -/
def execNotchq (i : Byte) (s : State) : Result :=
  s.withRotor i fun _ r => .next (s.unitReturn (.bit r.engaged))

/-- RSTEP (42_rotor_stepper.md R82). -/
def execRstep (i : Byte) (s : State) : Result :=
  s.withRotor i fun m _ => .next ((s.setMachine { m with rotors := stepAt i.toNat m.rotors }).unitReturn .done)

/-- SSTEP (42_rotor_stepper.md R83). -/
def execSstep (s : State) : Result :=
  s.withMachine fun m => .next ((s.setMachine m.sstep).unitReturn .done)

end Sys2Proof.Machine
end

