-- ==== Sys2Proof/Machine/RotorWiringTable.lean ====
section
/-! DEFINITION. The sub-block `rotor_wiring_table`: RBUILD (40_rotor_wiring_table.md). -/

namespace Sys2Proof.Machine

/-- Stage 3, the table fill (40_rotor_wiring_table.md R68): index and value both move up by the ring setting. `k` is
the index of the first image of the list. -/
def fillTables (ring : Symbol26) : Nat → List Symbol26 → Table × Table → Table × Table
  | _, [], t => t
  | k, y :: raw, t =>
    fillTables ring (k + 1) raw
      (memWrite t.1 (mod26 (k + ring.val)) (mod26 (y.val + ring.val)),
       memWrite t.2 (mod26 (y.val + ring.val)) (mod26 (k + ring.val)))

/-- RBUILD's four stages: wiring scan, scalar checks in the order ring, position, slot 0, slot 1, table fill, register
writes (40_rotor_wiring_table.md R66 to R70). -/
def buildRotor (r : RotorRecord) : Except Status Rotor :=
  match scanWiring r.w with
  | .error e => .error e
  | .ok raw =>
    match symbolOfByte? r.ring with
    | none => .error .invalidRingSetting
    | some ring =>
      match symbolOfByte? r.pos with
      | none => .error .invalidPosition
      | some pos =>
        if slotOutOfRange (r.nv.getLsbD 0) r.n0 then .error .invalidNotch
        else if slotOutOfRange (r.nv.getLsbD 1) r.n1 then .error .invalidNotch
        else
          .ok { pos, ring, notch := notchMask r.nv r.n0 r.n1,
                fwd := (fillTables ring 0 raw (blankTable, blankTable)).1,
                bwd := (fillTables ring 0 raw (blankTable, blankTable)).2 }

/-- Build rotor `i` into the staging copy. -/
def Staging.rbuild (st : Staging) (i : Nat) (r : RotorRecord) : Except Status Staging :=
  match buildRotor r with
  | .error e => .error e
  | .ok rotor => .ok { st with rotors := setSlot i rotor st.rotors }

/-- RBUILD (40_rotor_wiring_table.md R66): the tables and registers of rotor `i` in the staging copy, or the first
ConfigurationError and nothing built. The block holds rotors below `N_MAX` only (30_encoding.md R64). -/
def execRbuild (i : Byte) (r : RotorRecord) (s : State) : Result :=
  if s.cfg.nMax.toNat ≤ i.toNat then .fault .noRotor
  else .next (s.finishBuild (s.staging.rbuild i.toNat r))

end Sys2Proof.Machine
end

