-- ==== Sys2Proof/Machine/EnigmaEngine.lean ====
section
/-! DEFINITION. The sub-block `enigma_engine`: the seven host commands (45_enigma_engine.md). Each is one transaction
(20_memory.md R37); every response is one frame (30_encoding.md R53). -/

namespace Sys2Proof.Machine

/-! ### CONFIG -/

/-- The rotors of the records, ascending; the first error ends it (45_enigma_engine.md R108). -/
def buildRotors : List RotorRecord → Except Status (List Rotor)
  | [] => .ok []
  | r :: rs =>
    match buildRotor r with
    | .error e => .error e
    | .ok rotor =>
      match buildRotors rs with
      | .error e => .error e
      | .ok rotors => .ok (rotor :: rotors)

/-- The checks and builds of an accepted CONFIG, in order: rotor count, rotors, reflector, plugboard, then
`N <- N_frame` (45_enigma_engine.md R108, R109). What it has built so far is the staging copy of 10_state.md R21 item 3,
which nothing outside the command sees: the value is a whole machine or none. -/
def buildMachine (cap : Byte) (rots : List RotorRecord) (rw : Wiring) (pairs : List Pair) : Except Status Enigma :=
  if rots.length < Config.nMin then .error .tooFewRotors
  else
    match buildRotors rots with
    | .error e => .error e
    | .ok rotors =>
      match buildReflector rw with
      | .error e => .error e
      | .ok refl =>
        match buildPlugboard cap pairs with
        | .error e => .error e
        | .ok plug => .ok { n := countByte rots.length, pairCap := cap, rotors, refl, plug }

/-- CONFIG (45_enigma_engine.md R108). A count above `N_MAX` is refused and changes nothing (30_encoding.md R56 item 5).
An accepted CONFIG first destroys any earlier machine, and anything staged at the exposed bus (log 2). It then installs
the whole new one, or leaves none (R109, 60_exceptions.md R135). -/
def execConfig (cap : Byte) (rots : List RotorRecord) (rw : Wiring) (pairs : List Pair) (s : State) : Result :=
  if s.cfg.nMax.toNat < rots.length then .next (s.raise .capacityExceeded)
  else
    match buildMachine cap rots rw pairs with
    | .error e => .next (s.destroy.raise e)
    | .ok m => .next ((s.destroy.setMachine m).answer [])

/-! ### ENCS -/

/-- Forward through every rotor, index 0 first (45_enigma_engine.md R110 step 3). -/
def forwardPass (rs : List Rotor) (x : Symbol26) : Symbol26 := rs.foldl (fun x r => r.travf x) x

/-- Backward through every rotor, last index first (45_enigma_engine.md R110 step 5). -/
def backwardPass (rs : List Rotor) (x : Symbol26) : Symbol26 := rs.foldr (fun r x => r.travb x) x

/-- The signal path at the positions as they stand: steps 3, 4, 5 and 6 of a keystroke after the first plugboard pass,
all of them without stepping (45_enigma_engine.md R110, R120). -/
def Enigma.signalPath (m : Enigma) (x : Symbol26) : Symbol26 :=
  m.plugPass (backwardPass m.stack (m.reflect (forwardPass m.stack x)))

/-- One keystroke (45_enigma_engine.md R110): plugboard, SSTEP, then the signal path at the new positions. -/
def Enigma.keystroke (m : Enigma) (x : Symbol26) : Enigma × Symbol26 :=
  (m.sstep, m.sstep.signalPath (m.plugPass x))

/-- ENCS (45_enigma_engine.md R110). A byte above 0x19 is refused and no rotor steps (30_encoding.md R56 item 6). -/
def execEncs (ss : Byte) (s : State) : Result :=
  s.whenReady fun m =>
    match symbolOfByte? ss with
    | none => .next (s.raise .illegalSymbol)
    | some x => .next ((s.setMachine (m.keystroke x).1).answer [zext8 (m.keystroke x).2])

/-! ### ENCC -/

/-- One character (45_enigma_engine.md R112): a LETTER takes one keystroke, a DIGIT or SPACE passes through, any other
is Unencodable (none). -/
def Enigma.encodeChar (cfg : Config) (m : Enigma) (c : Byte) : Option (Enigma × Byte) :=
  match classify cfg c with
  | .letter x => some ((m.keystroke x).1, symbolLetter (m.keystroke x).2)
  | .digit => some (m, c)
  | .space => some (m, c)
  | .other => none

/-- ENCC (45_enigma_engine.md R112). -/
def execEncc (cc : Byte) (s : State) : Result :=
  s.whenReady fun m =>
    match m.encodeChar s.cfg cc with
    | none => .next (s.raise .unencodable)
    | some (m', d) => .next ((s.setMachine m').answer [d])

/-! ### ENCM -/

/-- What a message leaves: the machine, the output accumulated, and whether every character was encoded. -/
structure Encoding where
  machine : Enigma
  out : List Byte
  complete : Bool
  deriving DecidableEq, Repr

/-- The characters in order; at the first Unencodable one the rest is not looked at (45_enigma_engine.md R113). -/
def Enigma.encodeChars (cfg : Config) (m : Enigma) : List Byte → Encoding
  | [] => ⟨m, [], true⟩
  | c :: cs =>
    match m.encodeChar cfg c with
    | none => ⟨m, [], false⟩
    | some (m', d) =>
      let e := Enigma.encodeChars cfg m' cs
      ⟨e.machine, d :: e.out, e.complete⟩

/-- The response to ENCM: the status, the count and the output; on Unencodable the count is the index of the offending
character (30_encoding.md R53). -/
def Encoding.response (e : Encoding) : Frame :=
  (if e.complete then Status.ok.code else Status.unencodable.code) :: countByte e.out.length :: e.out

/-- ENCM (45_enigma_engine.md R113). -/
def execEncm (cs : List Byte) (s : State) : Result :=
  s.whenReady fun m =>
    .next ((s.setMachine (m.encodeChars s.cfg cs).machine).respond (m.encodeChars s.cfg cs).response)

/-! ### GETPOS, SETPOS, GETRING -/

/-- GETPOS (45_enigma_engine.md R114). -/
def execGetpos (s : State) : Result :=
  s.whenReady fun m => .next (s.answer (m.stack.map fun r => zext8 r.pos))

/-- Write the positions, rotor 0 first. -/
def setPositions : List Symbol26 → List Rotor → List Rotor
  | p :: ps, r :: rs => { r with pos := p } :: setPositions ps rs
  | _, rs => rs

/-- SETPOS (45_enigma_engine.md R115): a frame of another length than `1 + N` is refused (30_encoding.md R56 item 3);
all positions are checked before any is written. -/
def execSetpos (ps : List Byte) (s : State) : Result :=
  s.whenReady fun m =>
    if ps.length = m.n.toNat then
      match symbolsOfBytes? ps with
      | none => .next (s.raise .invalidPosition)
      | some xs => .next ((s.setMachine { m with rotors := setPositions xs m.rotors }).answer [])
    else .next (s.raise .illegalCommand)

/-- GETRING (45_enigma_engine.md R116). -/
def execGetring (s : State) : Result :=
  s.whenReady fun m => .next (s.answer (m.stack.map fun r => zext8 r.ring))

end Sys2Proof.Machine
end

