-- ==== Sys2Proof/Machine/Dispatch.lean ====
section
/-! DEFINITION. One arm per constructor of `Instr`: its meaning. -/

namespace Sys2Proof.Machine

def exec (i : Instr) (s : State) : Host.Outcome State Fault Refusal :=
  match i with
  -- format H, 45_enigma_engine.md
  | .config cap rots rw pairs => Sys2Proof.Machine.execConfig cap rots rw pairs s
  | .encs ss => Sys2Proof.Machine.execEncs ss s
  | .encc cc => Sys2Proof.Machine.execEncc cc s
  | .encm cs => Sys2Proof.Machine.execEncm cs s
  | .getpos => Sys2Proof.Machine.execGetpos s
  | .setpos ps => Sys2Proof.Machine.execSetpos ps s
  | .getring => Sys2Proof.Machine.execGetring s
  -- format U, files 40 to 44
  | .rbuild j r => Sys2Proof.Machine.execRbuild j r s
  | .travf j x => Sys2Proof.Machine.execTravf j x s
  | .travb j x => Sys2Proof.Machine.execTravb j x s
  | .notchq j => Sys2Proof.Machine.execNotchq j s
  | .rstep j => Sys2Proof.Machine.execRstep j s
  | .sstep => Sys2Proof.Machine.execSstep s
  | .fbuild rw => Sys2Proof.Machine.execFbuild rw s
  | .refl x => Sys2Proof.Machine.execRefl x s
  | .pbuild cap pairs => Sys2Proof.Machine.execPbuild cap pairs s
  | .plug x => Sys2Proof.Machine.execPlug x s

end Sys2Proof.Machine
end

