-- ==== Sys2Proof/Machine/Fetch.lean ====
section
/-! DEFINITION. How the block takes its next operation: a transaction of the exposed micro-operation bus first (log 5),
then the host's next input (30_encoding.md R58: arrival order, one at a time). -/

namespace Sys2Proof.Machine

/-- The status of a frame that is no command (30_encoding.md R56): item 1 before item 2 before items 3 and 4. CONFIG is
the one opcode that UNCONFIGURED does not refuse. -/
def rejectStatus (lc : Life) : Reject → Status
  | .emptyFrame => .illegalCommand
  | .unknownOpcode => .illegalCommand
  | .wrongLength op =>
    match lc with
    | .unconfigured => if op = 0x01 then .illegalCommand else .notConfigured
    | .ready _ => .illegalCommand
  | .reservedBits => .illegalCommand

/-- The fault of a transaction that is no micro-operation. -/
def microFault : MicroReject → Fault
  | .reservedSelect => .reservedSelect
  | .symbolRange => .portRange
  | .pairCount => .portRange

/-- What the block does next. -/
inductive Fetched where
  /-- Execute the instruction from this state. -/
  | run (i : Instr) (s : State)
  /-- Nothing to execute: the step is complete. -/
  | settled (s : State)
  /-- No behaviour is defined. -/
  | stuck (r : Fault)
  deriving DecidableEq, Repr

/-- The next operation. With nothing pending the block is idle and holds its state (60_exceptions.md R143); a reset
pulse resets it (70_reset_and_hazards.md R146); a frame that is no command is answered and changes nothing
(30_encoding.md R56, 60_exceptions.md R130). -/
def fetch (s : State) : Fetched :=
  match s.bus with
  | m :: bus =>
    match decodeMicro m with
    | .ok i => .run i { s with bus }
    | .error r => .stuck (microFault r)
  | [] =>
    match s.inputs with
    | [] => .settled s
    | .rst :: inputs => .settled { s with inputs }.applyRst
    | .frame f :: inputs =>
      match decode f with
      | .ok i => .run i { s with inputs }
      | .error r => .settled ({ s with inputs }.raise (rejectStatus s.lc r))

end Sys2Proof.Machine
end

