-- ==== Sys2Proof/Machine/Step.lean ====
section
/-! DEFINITION. One step of the block: take the next operation and execute it to completion (30_encoding.md R58). -/

namespace Sys2Proof.Machine

/-- One step. -/
def step (s : State) : Host.Outcome State Fault Refusal :=
  match fetch s with
  | .run i s' => exec i s'
  | .settled s' => .next s'
  | .stuck r => .fault r

/-- The instruction of a table word, placed where the next step takes its operation from (log 12): a frame goes to the
head of the host's inputs with nothing on the bus before it, a micro-operation to the head of the bus. -/
def State.withFetchWord (s : State) (nbits w : Nat) : State :=
  match tableEncoded nbits w with
  | .frame f => { s with bus := [], inputs := .frame f :: s.inputs }
  | .micro m => { s with bus := m :: s.bus }

end Sys2Proof.Machine
end

