-- ==== Sys2Proof/Safety.lean ====
section
/-! DEFINITION. The terms claims are made in: the invariant of 10_state.md R26, what a refused response is, and the
micro-operation programs that the engine's commands stand for. -/

namespace Sys2Proof.Machine

/-! ### The invariant (10_state.md R26) -/

/-- The tables of a rotor are inverse to each other, which makes both of them bijections (R26 item 3). -/
def Rotor.tablesWf (r : Rotor) : Bool :=
  decide (∀ x, memRead r.bwd (memRead r.fwd x) = x) && decide (∀ x, memRead r.fwd (memRead r.bwd x) = x)

/-- How many positions a notch mask holds. -/
def notchCount (mask : BitVec 26) : Nat := (List.range 26).countP fun p => mask.getLsbD p

/-- R26 items 2 and 3 for one rotor; the ranges of POS and RING are their types. -/
def Rotor.wf (r : Rotor) : Bool := r.tablesWf && decide (notchCount r.notch ≤ Config.notchMax)

/-- How many symbols a table moves. -/
def movedCount (t : Table) : Nat := (List.finRange 26).countP fun x => memRead t x != x

/-- The form of the table memories of a machine (R26 items 3, 4, 5): rotor tables inverse to each other, the reflector
a bijection and nothing more, the plugboard an involution with at most `2 * min(PAIR_CAP, 13)` moved symbols. -/
def Memory.wf (m : Enigma) : Bool :=
  m.rotors.all Rotor.tablesWf
    && decide (∀ x y, memRead m.refl x = memRead m.refl y → x = y)
    && decide (∀ x, memRead m.plug (memRead m.plug x) = x)
    && decide (movedCount m.plug ≤ 2 * min m.pairCap.toNat Config.pairMax)

/-- All of R26 for the machine of a READY block. -/
def Enigma.wf (cfg : Config) (m : Enigma) : Bool :=
  decide (Config.nMin ≤ m.n.toNat) && decide (m.n.toNat ≤ cfg.nMax.toNat) && decide (m.rotors.length = m.n.toNat)
    && m.rotors.all Rotor.wf && Memory.wf m

/-- The parameters are in their stated ranges and, in READY, R26 holds. -/
def State.inv (s : State) : Bool :=
  s.cfg.wf &&
    match s.lc with
    | .unconfigured => true
    | .ready m => m.wf s.cfg

/-! ### Properties of a configuration that the hardware does not check (43_reflector_path.md R94) -/

/-- The reflector is an involution. -/
def Enigma.reciprocal (m : Enigma) : Prop := ∀ x, memRead m.refl (memRead m.refl x) = x

/-- The reflector has no fixed point. -/
def Enigma.fixedPointFree (m : Enigma) : Prop := ∀ x, memRead m.refl x ≠ x

/-! ### Responses -/

/-- A refusal: one status byte of class 0x4 (60_exceptions.md R126, R130). The spec advises that claims be made about
runs in which none occurs (log 7). -/
def isRefusal : Frame → Bool
  | [b] => b.toNat / 16 == 4
  | _ => false

/-- No response so far is a refusal. -/
def State.refusalFree (s : State) : Bool := s.rsp.all fun f => !isRefusal f

/-- The outcome of an operation is a next state. -/
def answers : Result → Bool
  | .next _ => true
  | .fault _ => false
  | .refused _ => false

/-! ### The machine apart from its positions (10_state.md R25) -/

/-- What is constant of a rotor: `RING`, `NOTCH`, `FWD`, `BWD`. -/
def Rotor.constants (r : Rotor) : Symbol26 × BitVec 26 × Table × Table := (r.ring, r.notch, r.fwd, r.bwd)

/-- `m'` differs from `m` in positions at most. -/
def Enigma.sameConstants (m m' : Enigma) : Prop :=
  m'.n = m.n ∧ m'.pairCap = m.pairCap ∧ m'.refl = m.refl ∧ m'.plug = m.plug ∧
    m'.rotors.map Rotor.constants = m.rotors.map Rotor.constants

/-- The positions, rotor 0 first. -/
def Enigma.positions (m : Enigma) : List Symbol26 := m.rotors.map Rotor.pos

/-! ### Micro-operation programs (30_encoding.md R50: format U operations are issued by the engine) -/

/-- Issue a micro-operation; none if it has no next state. -/
def issue (i : Instr) (s : State) : Option State :=
  match exec i s with
  | .next t => some t
  | .fault _ => none
  | .refused _ => none

/-- Issue a micro-operation that returns a symbol. -/
def issueSymbol (i : Instr) (s : State) : Option (State × Symbol26) :=
  match issue i s with
  | none => none
  | some t =>
    match t.busResult with
    | some (.symbol y) => some (t, y)
    | _ => none

/-- Issue a micro-operation for each rotor index of the list, each taking the symbol the one before returned. -/
def issueAlong (op : Byte → Symbol26 → Instr) : List Nat → State × Symbol26 → Option (State × Symbol26)
  | [], p => some p
  | i :: is, (s, x) =>
    match issueSymbol (op (countByte i) x) s with
    | none => none
    | some p => issueAlong op is p

/-- The six steps of a keystroke as micro-operations, for a stack of `n` rotors (45_enigma_engine.md R110). -/
def issueKeystroke (n : Nat) (x : Symbol26) (s : State) : Option (State × Symbol26) := do
  let (s, x) ← issueSymbol (.plug x) s
  let s ← issue .sstep s
  let (s, x) ← issueAlong .travf (List.range n) (s, x)
  let (s, x) ← issueSymbol (.refl x) s
  let (s, x) ← issueAlong .travb (List.range n).reverse (s, x)
  issueSymbol (.plug x) s

/-- Issue a build; none if it reports an error. -/
def issueBuild (i : Instr) (s : State) : Option State :=
  match issue i s with
  | none => none
  | some t =>
    match t.busResult with
    | some .done => some t
    | _ => none

/-- RBUILD of the records, from rotor `i` up. -/
def issueRbuilds : Nat → List RotorRecord → State → Option State
  | _, [], s => some s
  | i, r :: rs, s =>
    match issueBuild (.rbuild (countByte i) r) s with
    | none => none
    | some t => issueRbuilds (i + 1) rs t

/-- The builds of CONFIG as micro-operations (45_enigma_engine.md R108); none if one of them reports an error. -/
def issueBuilds (cap : Byte) (rots : List RotorRecord) (rw : Wiring) (pairs : List Pair) (s : State) : Option State := do
  let s ← issueRbuilds 0 rots s
  let s ← issueBuild (.fbuild rw) s
  issueBuild (.pbuild cap pairs) s

/-- The rotors of slots that are all filled. -/
def allBuilt : List (Option Rotor) → Option (List Rotor)
  | [] => some []
  | none :: _ => none
  | some r :: l =>
    match allBuilt l with
    | none => none
    | some rs => some (r :: rs)

/-- The machine a complete staging copy holds, with its rotor count: the measure by which claims compare builds issued
one by one with CONFIG (45_enigma_engine.md R108). No step commits a staging copy (log 2). -/
def Staging.commit (st : Staging) (n : Byte) : Option Enigma :=
  match allBuilt st.rotors, st.refl, st.plug, st.pairCap with
  | some rotors, some refl, some plug, some pairCap => some { n, pairCap, rotors, refl, plug }
  | _, _, _, _ => none

/-! ### Legal operands of a configuration, and what they build, in the spec's own terms -/

/-- Character `k` of a wiring. -/
abbrev wiringChar (w : Wiring) (k : Symbol26) : Byte := w[k.val]

/-- A wiring that the scan accepts: letters only, no target twice (40_rotor_wiring_table.md R67). -/
abbrev LegalWiring (w : Wiring) : Prop :=
  (∀ k, Config.isLetter (wiringChar w k) = true) ∧ ∀ j k, wiringChar w j = wiringChar w k → j = k

/-- Notch slots that are in range where they are valid (40_rotor_wiring_table.md R69). -/
abbrev LegalSlots (r : RotorRecord) : Prop :=
  (r.nv.getLsbD 0 = true → r.n0.toNat ≤ 25) ∧ (r.nv.getLsbD 1 = true → r.n1.toNat ≤ 25)

/-- A rotor record that RBUILD accepts (40_rotor_wiring_table.md R67, R69). -/
abbrev LegalRecord (r : RotorRecord) : Prop :=
  LegalWiring r.w ∧ r.ring.toNat ≤ 25 ∧ r.pos.toNat ≤ 25 ∧ LegalSlots r

/-- A pair list that PBUILD accepts: not above the cap, symbols in range, no symbol twice, in one pair or in two
(44_plugboard_substitution.md R99). -/
abbrev LegalPairs (cap : Byte) (pairs : List Pair) : Prop :=
  pairs.length ≤ cap.toNat ∧ (∀ p ∈ pairs, p.1.toNat ≤ 25 ∧ p.2.toNat ≤ 25) ∧ (pairs.flatMap pairBytes).Nodup

/-- No two symbols have one letter as their image, whatever else the characters are. -/
abbrev NoRepeatedTarget (w : Wiring) : Prop :=
  ∀ j k, Config.isLetter (wiringChar w j) = true → wiringChar w j = wiringChar w k → j = k

/-- Every number of the list is a symbol. -/
abbrev PairsInRange (pairs : List Pair) : Prop := ∀ p ∈ pairs, p.1.toNat ≤ 25 ∧ p.2.toNat ≤ 25

/-- No pair is of two equal numbers. -/
abbrev NoSelfPair (pairs : List Pair) : Prop := ∀ p ∈ pairs, p.1 ≠ p.2

/-- No number stands in two pairs, at either position. -/
abbrev PairsApart (pairs : List Pair) : Prop :=
  pairs.Pairwise fun p q => p.1 ≠ q.1 ∧ p.1 ≠ q.2 ∧ p.2 ≠ q.1 ∧ p.2 ≠ q.2

/-- The rotor is the one the record describes: registers by R69, tables by R68 of 40_rotor_wiring_table.md, where the
raw image of symbol `k` is the `y` whose letter is character `k`. -/
def RotorOf (r : RotorRecord) (rotor : Rotor) : Prop :=
  rotor.pos.val = r.pos.toNat ∧ rotor.ring.val = r.ring.toNat ∧
    (∀ p : Symbol26, rotor.notch.getLsbD p.val = true ↔
      (r.nv.getLsbD 0 = true ∧ r.n0.toNat = p.val) ∨ (r.nv.getLsbD 1 = true ∧ r.n1.toNat = p.val)) ∧
    ∀ k y : Symbol26, (wiringChar r.w k).toNat = 0x41 + y.val →
      memRead rotor.fwd (mod26 (k.val + rotor.ring.val)) = mod26 (y.val + rotor.ring.val) ∧
      memRead rotor.bwd (mod26 (y.val + rotor.ring.val)) = mod26 (k.val + rotor.ring.val)

/-- The reflector table is the wiring as given (43_reflector_path.md R92). -/
def ReflectorOf (rw : Wiring) (t : Table) : Prop :=
  ∀ k y : Symbol26, (wiringChar rw k).toNat = 0x41 + y.val → memRead t k = y

/-- The plugboard table swaps the listed pairs and nothing else (44_plugboard_substitution.md R99, R104). -/
def PlugboardOf (pairs : List Pair) (t : Table) : Prop :=
  (∀ p ∈ pairs, ∀ x y : Symbol26, x.val = p.1.toNat → y.val = p.2.toNat → memRead t x = y ∧ memRead t y = x) ∧
    ∀ z : Symbol26, (∀ p ∈ pairs, p.1.toNat ≠ z.val ∧ p.2.toNat ≠ z.val) → memRead t z = z

/-- The ConfigurationErrors of a build (60_exceptions.md R127). -/
def isBuildConfigurationError : Status → Bool
  | .invalidWiring | .duplicateWiring | .invalidPosition | .invalidNotch | .invalidRingSetting => true
  | _ => false

/-- The PlugboardErrors the hardware raises (60_exceptions.md R128). -/
def isPlugboardError : Status → Bool
  | .tooManyPairs | .selfPair | .outOfRange | .reused => true
  | _ => false

/-! ### A message as a loop of ENCC (45_enigma_engine.md R113) -/

/-- Issue ENCC for each character in turn; stop at the first that is not answered with status OK and one character.
Answers the state before that one, the output so far, and whether every character was encoded. -/
def enccLoop (s : State) : List Byte → State × List Byte × Bool
  | [] => (s, [], true)
  | c :: cs =>
    match issue (.encc c) s with
    | none => (s, [], false)
    | some t =>
      match t.rsp.getLast? with
      | some [st, d] =>
        if st = Status.ok.code then
          let e := enccLoop t cs
          (e.1, d :: e.2.1, e.2.2)
        else (s, [], false)
      | _ => (s, [], false)

/-- A character of class OTHER (30_encoding.md R46). -/
def isOther (cfg : Config) (c : Byte) : Bool := !Config.isLetter c && !Config.isDigit c && !cfg.ws.contains c

end Sys2Proof.Machine
end

