-- ==== Sys2Proof/Certificates/Slice0/Obligations.lean ====
section
/-! DEFINITION. The statements for the provers, each a rule of spec/ or a consequence of one (OBLIGATIONS.json gives the
rule and the sentence). Statements about a READY block quantify over every machine; where only reachable machines have
the property, the invariant of 10_state.md R26 stands as a premise and is a statement of its own. -/

open Sys2Proof Sys2Proof.Machine

/-! ### Reset -/

/-- R24, R146: after reset no machine exists and nothing is staged; the interface fields are the model's own and start
empty (log 4, log 5). -/
def Obligations.ResetHoldsNoMachine : Prop :=
  State.reset.lc = .unconfigured ∧ (∀ n, State.reset.staging.commit n = none) ∧
    State.reset.inputs = [] ∧ State.reset.rsp = [] ∧ State.reset.bus = [] ∧ State.reset.busResult = none

/-- R146: a pulse of the reset pin destroys the machine and answers nothing. That a pulse lands between commands is
the model's choice (log 4). -/
def Obligations.ResetPulseDestroysTheMachine : Prop :=
  ∀ (s : State) (rest : List Input), s.bus = [] → s.inputs = .rst :: rest →
    step s = .next { s with lc := .unconfigured, staging := Staging.empty, inputs := rest, busResult := none }

/-! ### Encodings -/

/-- Words written out from 30_encoding.md R51, R52 and R54 decode to the operations they stand for. -/
def Obligations.WordsDecodeAsTheSpecWritesThem : Prop :=
  decode [0x02, 0x19] = .ok (.encs 25) ∧
  decode [0x03, 0x41] = .ok (.encc 0x41) ∧
  decode [0x04, 0x02, 0x41, 0x5A] = .ok (.encm [0x41, 0x5A]) ∧
  decode [0x05] = .ok .getpos ∧
  decode [0x06, 0x14, 0x03, 0x00] = .ok (.setpos [20, 3, 0]) ∧
  decode [0x07] = .ok .getring ∧
  decode [0x00] = .error .unknownOpcode ∧
  decode [0x08] = .error .unknownOpcode ∧
  decodeMicro { MicroOp.bare 0x1 with i := 2, s := 25 } = .ok (.travf 2 25) ∧
  decodeMicro { MicroOp.bare 0x2 with i := 2, s := 7 } = .ok (.travb 2 7) ∧
  decodeMicro { MicroOp.bare 0x3 with i := 1 } = .ok (.notchq 1) ∧
  decodeMicro { MicroOp.bare 0x4 with i := 1 } = .ok (.rstep 1) ∧
  decodeMicro (MicroOp.bare 0x5) = .ok .sstep ∧
  decodeMicro { MicroOp.bare 0x7 with s := 5 } = .ok (.refl 5) ∧
  decodeMicro { MicroOp.bare 0x9 with s := 5 } = .ok (.plug 5)

/-- Decoding undoes encoding, for every well-formed instruction and every operand value an encoding admits. -/
def Obligations.DecodeOfEncodeIsTheInstruction : Prop :=
  ∀ i : Instr, i.wf = true → decodeEncoded (encode i) = some i

/-- Every frame the decoder accepts is exactly the encoding of the host command it reads: no bit is dropped, no two
frames are one command, and no frame is a format U operation (R50). -/
def Obligations.AcceptedFrameIsTheEncodingOfAHostCommand : Prop :=
  ∀ (f : Frame) (i : Instr), decode f = .ok i → encode i = .frame f ∧ i.wf = true ∧ i.isHost = true

/-- R57: the length of a frame, by its opcode and its own counts; for SETPOS by the register `N`, whatever else the
frame holds. That a SETPOS frame of another length is answered 0x42 as a next state is the model's choice (log 7). -/
def Obligations.FrameLengthByOpcode : Prop :=
  (∀ f : Frame, f.head? = some 0x01 →
    (decode f = .error (.wrongLength 0x01) ↔
      f.length ≠ 30 + 31 * (f.getD 1 0).toNat + 2 * (f.getD (29 + 31 * (f.getD 1 0).toNat) 0).toNat)) ∧
  (∀ f : Frame, f.head? = some 0x02 → (decode f = .error (.wrongLength 0x02) ↔ f.length ≠ 2)) ∧
  (∀ f : Frame, f.head? = some 0x03 → (decode f = .error (.wrongLength 0x03) ↔ f.length ≠ 2)) ∧
  (∀ f : Frame, f.head? = some 0x04 →
    (decode f = .error (.wrongLength 0x04) ↔ f.length ≠ 2 + (f.getD 1 0).toNat)) ∧
  (∀ f : Frame, f.head? = some 0x05 → (decode f = .error (.wrongLength 0x05) ↔ f.length ≠ 1)) ∧
  (∀ f : Frame, f.head? = some 0x07 → (decode f = .error (.wrongLength 0x07) ↔ f.length ≠ 1)) ∧
  (∀ (s : State) (m : Enigma) (f : Frame) (rest : List Input), s.bus = [] → s.inputs = .frame f :: rest →
    s.lc = .ready m → f.head? = some 0x06 → f.length ≠ 1 + m.n.toNat →
    step s = .next { s with inputs := rest, rsp := s.rsp ++ [[0x42]] })

/-! ### A step -/

/-- A step runs the host command the next frame decodes to, with the frame taken (R58). The queue of frames is the
model's own (log 4). -/
def Obligations.StepRunsTheDecodedFrame : Prop :=
  ∀ (s : State) (f : Frame) (rest : List Input) (i : Instr), s.bus = [] → s.inputs = .frame f :: rest →
    decode f = .ok i → step s = exec i { s with inputs := rest }

/-- A step runs the micro-operation at the head of the exposed bus, with the transaction taken (log 5). -/
def Obligations.StepRunsTheDecodedMicroOperation : Prop :=
  ∀ (s : State) (m : MicroOp) (rest : List MicroOp) (i : Instr), s.bus = m :: rest →
    decodeMicro m = .ok i → step s = exec i { s with bus := rest }

/-- R143: with nothing pending the block is idle and holds its state. -/
def Obligations.IdleBlockHoldsItsState : Prop :=
  ∀ s : State, s.bus = [] → s.inputs = [] → step s = .next s

/-- R56 items 1 to 4: a frame that is no command is answered with one status byte and changes nothing else; the status
is NotConfigured exactly for the opcodes 0x02 to 0x07 while UNCONFIGURED. That the answer is a next state is the
model's choice (log 7). -/
def Obligations.RejectedFrameIsAnsweredAndChangesNothing : Prop :=
  ∀ (s : State) (f : Frame) (rest : List Input) (r : Reject), s.bus = [] → s.inputs = .frame f :: rest →
    decode f = .error r →
    step s = .next { s with
      inputs := rest
      rsp := s.rsp ++ [[if s.lc = .unconfigured ∧ 2 ≤ (f.getD 0 0).toNat ∧ (f.getD 0 0).toNat ≤ 7 then 0x40
        else 0x42]] }

/-- U8, U3: at the exposed bus the reserved selects, the values no symbol port carries and a pair list longer than its 8-bit
count are stuck (log 5, log 11). -/
def Obligations.ReservedTransactionsAreStuck : Prop :=
  (∀ (s : State) (m : MicroOp) (rest : List MicroOp), s.bus = m :: rest → 0xA ≤ m.uop.toNat →
    step s = .fault .reservedSelect) ∧
  (∀ (s : State) (m : MicroOp) (rest : List MicroOp), s.bus = m :: rest → m.uop.toNat ∈ [0x1, 0x2, 0x7, 0x9] →
    26 ≤ m.s.toNat → step s = .fault .portRange) ∧
  (∀ (s : State) (m : MicroOp) (rest : List MicroOp), s.bus = m :: rest → m.uop.toNat = 0x8 → 255 < m.pairs.length →
    step s = .fault .portRange)

/-- R53: whatever the host presents, the block takes it, and a command frame is answered by exactly one response frame;
no host input makes the block stop, and none puts anything on the micro-operation bus. That a reset pulse is an input that
lands between commands and answers nothing is R146 with the model's choice of log 4, and that a refused frame is answered
with a next state is the model's choice of log 7. -/
def Obligations.EveryCommandIsAnsweredByOneFrame : Prop :=
  ∀ s : State, s.bus = [] →
    ∃ t, step s = .next t ∧ t.bus = [] ∧
      (∀ (f : Frame) (rest : List Input), s.inputs = .frame f :: rest →
        t.inputs = rest ∧ ∃ st body, t.rsp = s.rsp ++ [st :: body]) ∧
      (∀ rest : List Input, s.inputs = .rst :: rest → t.inputs = rest ∧ t.rsp = s.rsp)

/-! ### The invariant and what is constant -/

/-- R26 holds right after reset (no machine exists, and the parameters are in range). -/
def Obligations.ResetMeetsTheInvariant : Prop := State.reset.inv = true

/-- R26: every rule preserves the invariants of READY. -/
def Obligations.StepKeepsTheInvariant : Prop :=
  ∀ s t : State, s.inv = true → step s = .next t → t.inv = true

/-- R25: in READY a step writes positions and nothing else of the machine, unless it takes a reset pulse or a CONFIG
frame. -/
def Obligations.OnlyPositionsChangeWithoutConfigOrReset : Prop :=
  ∀ (s t : State) (m : Enigma), s.lc = .ready m → step s = .next t →
    (∃ m', t.lc = .ready m' ∧ m.sameConstants m') ∨
    (s.bus = [] ∧ ∃ rest, s.inputs = .rst :: rest) ∨
    (s.bus = [] ∧ ∃ f rest, s.inputs = .frame f :: rest ∧ f.head? = some 0x01)

/-- R11: `LC` becomes READY by a CONFIG answered OK and in no other way, and UNCONFIGURED by reset or by a CONFIG
answered with an error and in no other way. -/
def Obligations.LifecycleChangesByConfigOrResetOnly : Prop :=
  (∀ (s t : State) (m : Enigma), s.lc = .unconfigured → step s = .next t → t.lc = .ready m →
    ∃ f rest, s.inputs = .frame f :: rest ∧ f.head? = some 0x01 ∧ t.rsp = s.rsp ++ [[0x00]]) ∧
  (∀ (s t : State) (m : Enigma), s.lc = .ready m → step s = .next t → t.lc = .unconfigured →
    (∃ rest, s.inputs = .rst :: rest ∧ t.rsp = s.rsp) ∨
    ∃ f rest e, s.inputs = .frame f :: rest ∧ f.head? = some 0x01 ∧ e ≠ 0x00 ∧ t.rsp = s.rsp ++ [[e]])

/-- R56 item 2: while UNCONFIGURED every host command but CONFIG is refused with NotConfigured, whatever its operands,
and nothing changes. That the answer is a next state is the model's choice (log 7). -/
def Obligations.UnconfiguredBlockRefusesAllButConfig : Prop :=
  ∀ s : State, s.lc = .unconfigured →
    (∀ ss, exec (.encs ss) s = .next { s with rsp := s.rsp ++ [[0x40]] }) ∧
    (∀ cc, exec (.encc cc) s = .next { s with rsp := s.rsp ++ [[0x40]] }) ∧
    (∀ cs, exec (.encm cs) s = .next { s with rsp := s.rsp ++ [[0x40]] }) ∧
    exec .getpos s = .next { s with rsp := s.rsp ++ [[0x40]] } ∧
    (∀ ps, exec (.setpos ps) s = .next { s with rsp := s.rsp ++ [[0x40]] }) ∧
    exec .getring s = .next { s with rsp := s.rsp ++ [[0x40]] }

/-- Frame of the host commands: parameters, inputs, bus and unit results stay, exactly one frame is appended to the
responses (R53); all but CONFIG leave the staging copy, the lifecycle and everything of the machine but its positions (R25).
That host commands leave the bus and the unit result alone is the model's choice (log 5), and so are the queue of inputs
(log 4) and that a staging copy persists and a command other than CONFIG leaves it (log 2). -/
def Obligations.HostCommandFrame : Prop :=
  ∀ (i : Instr) (s t : State), i.isHost = true → exec i s = .next t →
    t.cfg = s.cfg ∧ t.inputs = s.inputs ∧ t.bus = s.bus ∧ t.busResult = s.busResult ∧
    (∃ st body, t.rsp = s.rsp ++ [st :: body]) ∧
    ((∀ cap rots rw pairs, i ≠ .config cap rots rw pairs) →
      t.staging = s.staging ∧ (s.lc = .unconfigured → t.lc = .unconfigured) ∧
      ∀ m, s.lc = .ready m → ∃ m', t.lc = .ready m' ∧ m.sameConstants m')

/-- Frame of the micro-operations: no response, nothing of the interface; only the builds write the staging copy, only
RSTEP and SSTEP write positions, and nothing writes any other register or any table of the machine (R54, R25). That
micro-operations can be issued alone, on an exposed bus with a result port, is the model's choice (log 5). So is that builds
issued alone write only a staging copy, that it persists and the other operations leave it, and that a build that raises leaves
`LC` and any machine as they are (log 2). -/
def Obligations.MicroOperationFrame : Prop :=
  ∀ (i : Instr) (s t : State), i.isHost = false → exec i s = .next t →
    t.cfg = s.cfg ∧ t.inputs = s.inputs ∧ t.bus = s.bus ∧ t.rsp = s.rsp ∧ t.busResult.isSome = true ∧
    ((∀ j r, i ≠ .rbuild j r) → (∀ rw, i ≠ .fbuild rw) → (∀ cap pairs, i ≠ .pbuild cap pairs) →
      t.staging = s.staging) ∧
    ((∀ j, i ≠ .rstep j) → i ≠ .sstep → t.lc = s.lc) ∧
    ∀ m, s.lc = .ready m → ∃ m', t.lc = .ready m' ∧ m.sameConstants m'

/-! ### CONFIG -/

/-- R108: a CONFIG with legal operands completes: the machine it describes exists, with `N`, `PAIR_CAP`, every rotor, the
reflector and the plugboard as the operands say, whatever existed before. The sign of the ring shift is decision D7 of the
spec (log 10). -/
def Obligations.ConfigBuildsTheMachine : Prop :=
  ∀ (s : State) (cap : Byte) (rots : List RotorRecord) (rw : Wiring) (pairs : List Pair),
    3 ≤ rots.length → rots.length ≤ s.cfg.nMax.toNat → (∀ r ∈ rots, LegalRecord r) → LegalWiring rw →
    LegalPairs cap pairs →
    ∃ m, exec (.config cap rots rw pairs) s =
        .next { s with lc := .ready m, staging := Staging.empty, rsp := s.rsp ++ [[0x00]] } ∧
      m.n.toNat = rots.length ∧ m.pairCap = cap ∧ m.rotors.length = rots.length ∧
      (∀ (i : Nat) (r : RotorRecord) (rotor : Rotor), rots[i]? = some r → m.rotors[i]? = some rotor →
        RotorOf r rotor) ∧
      ReflectorOf rw m.refl ∧ PlugboardOf pairs m.plug

/-- R135: a CONFIG within the capacity whose operands are not all legal reports a ConfigurationError or a
PlugboardError, and neither the new nor the old machine exists afterwards. Which error it is, is not stated (U2). -/
def Obligations.FailedConfigLeavesNoMachine : Prop :=
  ∀ (s : State) (cap : Byte) (rots : List RotorRecord) (rw : Wiring) (pairs : List Pair),
    rots.length ≤ s.cfg.nMax.toNat →
    ¬ (3 ≤ rots.length ∧ (∀ r ∈ rots, LegalRecord r) ∧ LegalWiring rw ∧ LegalPairs cap pairs) →
    ∃ e : Status, exec (.config cap rots rw pairs) s =
        .next { s with lc := .unconfigured, staging := Staging.empty, rsp := s.rsp ++ [[e.code]] } ∧
      (e = .tooFewRotors ∨ isBuildConfigurationError e = true ∨ isPlugboardError e = true)

/-- R108, R126: fewer than 3 rotors, with the rest legal, is TooFewRotors (0x15); an error of the one component that has a
defect is the status of the command, unchanged, and the errors of the builds have the bytes of R126. That no machine is left,
the old one included, is decision D22 of the spec, and that TooFewRotors and InvalidRingSetting have statuses of their own
are D11 and D10 (log 10). -/
def Obligations.ConfigReportsItsOnlyDefect : Prop :=
  ([Status.invalidWiring, .duplicateWiring, .invalidPosition, .invalidNotch, .invalidRingSetting].map Status.code =
      [0x10, 0x11, 0x12, 0x13, 0x14] ∧
    [Status.tooManyPairs, .selfPair, .outOfRange, .reused].map Status.code = [0x20, 0x21, 0x22, 0x23]) ∧
  ∀ (s : State) (cap : Byte) (rots : List RotorRecord) (rw : Wiring) (pairs : List Pair),
    rots.length ≤ s.cfg.nMax.toNat →
    (rots.length < 3 → (∀ r ∈ rots, LegalRecord r) → LegalWiring rw → LegalPairs cap pairs →
      exec (.config cap rots rw pairs) s =
        .next { s with lc := .unconfigured, staging := Staging.empty, rsp := s.rsp ++ [[0x15]] }) ∧
    (3 ≤ rots.length → LegalWiring rw → LegalPairs cap pairs →
      ∀ (i : Nat) (r : RotorRecord) (e : Status), rots[i]? = some r → buildRotor r = .error e →
        (∀ (j : Nat) (q : RotorRecord), rots[j]? = some q → j ≠ i → LegalRecord q) →
        exec (.config cap rots rw pairs) s =
          .next { s with lc := .unconfigured, staging := Staging.empty, rsp := s.rsp ++ [[e.code]] }) ∧
    (3 ≤ rots.length → (∀ r ∈ rots, LegalRecord r) → LegalPairs cap pairs →
      ∀ e : Status, buildReflector rw = .error e →
        exec (.config cap rots rw pairs) s =
          .next { s with lc := .unconfigured, staging := Staging.empty, rsp := s.rsp ++ [[e.code]] }) ∧
    (3 ≤ rots.length → (∀ r ∈ rots, LegalRecord r) → LegalWiring rw →
      ∀ e : Status, buildPlugboard cap pairs = .error e →
        exec (.config cap rots rw pairs) s =
          .next { s with lc := .unconfigured, staging := Staging.empty, rsp := s.rsp ++ [[e.code]] })

/-- R56 item 5: a rotor count above `N_MAX` is refused with CapacityExceeded; any machine that exists stays. That
the answer is a next state is the model's choice (log 7). -/
def Obligations.ConfigAboveCapacityChangesNothing : Prop :=
  ∀ (s : State) (cap : Byte) (rots : List RotorRecord) (rw : Wiring) (pairs : List Pair),
    s.cfg.nMax.toNat < rots.length →
    exec (.config cap rots rw pairs) s = .next { s with rsp := s.rsp ++ [[0x43]] }

/-- R108, R109: CONFIG reads only its operands: within the capacity, the same frame gives the same response and leaves the
same machine, or none, whatever machine existed before. -/
def Obligations.ConfigReadsOnlyItsOperands : Prop :=
  ∀ (s s' : State) (cap : Byte) (rots : List RotorRecord) (rw : Wiring) (pairs : List Pair),
    rots.length ≤ s.cfg.nMax.toNat → rots.length ≤ s'.cfg.nMax.toNat →
    ∃ l st, exec (.config cap rots rw pairs) s =
        .next { s with lc := l, staging := Staging.empty, rsp := s.rsp ++ [[st]] } ∧
      exec (.config cap rots rw pairs) s' =
        .next { s' with lc := l, staging := Staging.empty, rsp := s'.rsp ++ [[st]] }

/-- R107, R108: CONFIG is its builds. RBUILD of each record in index order, FBUILD and PBUILD, issued as
micro-operations, leave in the staging copy the machine CONFIG installs; and CONFIG fails when one of them reports an
error. That builds issued one by one share a staging copy is the model's choice (log 2). -/
def Obligations.ConfigIsItsMicroOperations : Prop :=
  ∀ (s : State) (cap : Byte) (rots : List RotorRecord) (rw : Wiring) (pairs : List Pair),
    s.staging = Staging.empty → 3 ≤ rots.length → rots.length ≤ s.cfg.nMax.toNat →
    (∀ t, issueBuilds cap rots rw pairs s = some t →
      ∃ m, t.staging.commit (countByte rots.length) = some m ∧
        exec (.config cap rots rw pairs) s =
          .next { s with lc := .ready m, staging := Staging.empty, rsp := s.rsp ++ [[0x00]] }) ∧
    (issueBuilds cap rots rw pairs s = none →
      ∃ e : Byte, e ≠ 0x00 ∧ exec (.config cap rots rw pairs) s =
        .next { s with lc := .unconfigured, staging := Staging.empty, rsp := s.rsp ++ [[e]] })

/-! ### The builds -/

/-- R68, R69, R71: RBUILD of a legal record fills slot `i` of the staging copy with the rotor the record describes,
its tables inverse to each other and at most two notches. The sign of the ring shift is decision D7 of the spec (log 10).
That an RBUILD issued alone fills a slot of a staging copy that persists, and leaves the other slots and `LC`, is the model's
choice (log 2), and so is that it reads `nv[1:0]` only (log 11). -/
def Obligations.RbuildBuildsTheRotor : Prop :=
  ∀ (s : State) (j : Byte) (r : RotorRecord), j.toNat < s.cfg.nMax.toNat → LegalRecord r →
    ∃ rotor, exec (.rbuild j r) s = .next { s with
        staging := { s.staging with rotors := setSlot j.toNat rotor s.staging.rotors }
        busResult := some .done } ∧
      RotorOf r rotor ∧ rotor.wf = true

/-- R92: FBUILD of a legal wiring stages the reflector table as given, with no further check. That an FBUILD issued alone
writes a staging copy that persists, and nothing else, is the model's choice (log 2). -/
def Obligations.FbuildBuildsTheReflector : Prop :=
  ∀ (s : State) (rw : Wiring), LegalWiring rw →
    ∃ t, exec (.fbuild rw) s = .next { s with
        staging := { s.staging with refl := some t }
        busResult := some .done } ∧
      ReflectorOf rw t

/-- R99, R100, R104: PBUILD of a legal pair list stages the symmetric table and the cap; exactly `2 * P` symbols move. That a
PBUILD issued alone writes a staging copy that persists, and nothing else, is the model's choice (log 2). -/
def Obligations.PbuildBuildsThePlugboard : Prop :=
  ∀ (s : State) (cap : Byte) (pairs : List Pair), LegalPairs cap pairs →
    ∃ t, exec (.pbuild cap pairs) s = .next { s with
        staging := { s.staging with plug := some t, pairCap := some cap }
        busResult := some .done } ∧
      PlugboardOf pairs t ∧ (∀ x, memRead t (memRead t x) = x) ∧ movedCount t = 2 * pairs.length

/-- R135, R67, R69, R92, R99: a build whose operands are not legal reports some error of its class and nothing that was
staged survives. Which error it is, is not stated (U2). R135 gives `LC = UNCONFIGURED` for CONFIG only: that a build that
raises when issued alone leaves `LC` and any machine as they are is the model's choice (log 2). -/
def Obligations.FailedBuildLeavesNothing : Prop :=
  (∀ (s : State) (j : Byte) (r : RotorRecord), j.toNat < s.cfg.nMax.toNat → ¬ LegalRecord r →
    ∃ e, exec (.rbuild j r) s = .next { s with staging := Staging.empty, busResult := some (.error e) } ∧
      isBuildConfigurationError e = true) ∧
  (∀ (s : State) (rw : Wiring), ¬ LegalWiring rw →
    ∃ e, exec (.fbuild rw) s = .next { s with staging := Staging.empty, busResult := some (.error e) } ∧
      (e = .invalidWiring ∨ e = .duplicateWiring)) ∧
  (∀ (s : State) (cap : Byte) (pairs : List Pair), ¬ LegalPairs cap pairs →
    ∃ e, exec (.pbuild cap pairs) s = .next { s with staging := Staging.empty, busResult := some (.error e) } ∧
      isPlugboardError e = true)

/-- R127, R69: a record with one defect, the rest of it legal, reports that defect: a character outside A to Z with no
target twice among the letters, a target twice with letters only, a ring setting, a position or a valid notch slot above 25.
InvalidRingSetting is a name of decision D10 of the spec (log 10); that the staging copy is emptied is log 2. -/
def Obligations.RbuildReportsItsOnlyDefect : Prop :=
  ∀ (s : State) (j : Byte) (r : RotorRecord), j.toNat < s.cfg.nMax.toNat →
    ((∃ k, Config.isLetter (wiringChar r.w k) = false) → NoRepeatedTarget r.w →
      r.ring.toNat ≤ 25 → r.pos.toNat ≤ 25 → LegalSlots r →
      exec (.rbuild j r) s =
        .next { s with staging := Staging.empty, busResult := some (.error .invalidWiring) }) ∧
    ((∀ k, Config.isLetter (wiringChar r.w k) = true) → ¬ NoRepeatedTarget r.w →
      r.ring.toNat ≤ 25 → r.pos.toNat ≤ 25 → LegalSlots r →
      exec (.rbuild j r) s =
        .next { s with staging := Staging.empty, busResult := some (.error .duplicateWiring) }) ∧
    (LegalWiring r.w → 25 < r.ring.toNat → r.pos.toNat ≤ 25 → LegalSlots r →
      exec (.rbuild j r) s =
        .next { s with staging := Staging.empty, busResult := some (.error .invalidRingSetting) }) ∧
    (LegalWiring r.w → r.ring.toNat ≤ 25 → 25 < r.pos.toNat → LegalSlots r →
      exec (.rbuild j r) s =
        .next { s with staging := Staging.empty, busResult := some (.error .invalidPosition) }) ∧
    (LegalWiring r.w → r.ring.toNat ≤ 25 → r.pos.toNat ≤ 25 → ¬ LegalSlots r →
      exec (.rbuild j r) s =
        .next { s with staging := Staging.empty, busResult := some (.error .invalidNotch) })

/-- R92, R99, R105: FBUILD and PBUILD report the one defect of their operands: a character outside A to Z; a target twice;
more pairs than the cap; a pair of equal symbols; a number above 25; a symbol in two pairs. That the staging copy is emptied
and `LC` stays is log 2. -/
def Obligations.FbuildAndPbuildReportTheirOnlyDefect : Prop :=
  (∀ (s : State) (rw : Wiring),
    ((∃ k, Config.isLetter (wiringChar rw k) = false) → NoRepeatedTarget rw →
      exec (.fbuild rw) s =
        .next { s with staging := Staging.empty, busResult := some (.error .invalidWiring) }) ∧
    ((∀ k, Config.isLetter (wiringChar rw k) = true) → ¬ NoRepeatedTarget rw →
      exec (.fbuild rw) s =
        .next { s with staging := Staging.empty, busResult := some (.error .duplicateWiring) })) ∧
  (∀ (s : State) (cap : Byte) (pairs : List Pair),
    (cap.toNat < pairs.length → PairsInRange pairs → NoSelfPair pairs → PairsApart pairs →
      exec (.pbuild cap pairs) s =
        .next { s with staging := Staging.empty, busResult := some (.error .tooManyPairs) }) ∧
    (pairs.length ≤ cap.toNat → PairsInRange pairs → ¬ NoSelfPair pairs → PairsApart pairs →
      exec (.pbuild cap pairs) s =
        .next { s with staging := Staging.empty, busResult := some (.error .selfPair) }) ∧
    (pairs.length ≤ cap.toNat → ¬ PairsInRange pairs → NoSelfPair pairs → PairsApart pairs →
      exec (.pbuild cap pairs) s =
        .next { s with staging := Staging.empty, busResult := some (.error .outOfRange) }) ∧
    (pairs.length ≤ cap.toNat → PairsInRange pairs → NoSelfPair pairs → ¬ PairsApart pairs →
      exec (.pbuild cap pairs) s =
        .next { s with staging := Staging.empty, busResult := some (.error .reused) }))

/-! ### The signal path -/

/-- R74, R75: TRAVF and TRAVB return the shifted lookup at the rotor's position and write nothing. -/
def Obligations.TraversalsReturnTheShiftedLookup : Prop :=
  ∀ (s : State) (m : Enigma) (j : Byte) (r : Rotor) (x : Symbol26), s.lc = .ready m → j.toNat < m.n.toNat →
    m.rotors[j.toNat]? = some r →
    exec (.travf j x) s = .next { s with
      busResult := some (.symbol (mod26 ((memRead r.fwd (mod26 (x.val + r.pos.val))).val - r.pos.val))) } ∧
    exec (.travb j x) s = .next { s with
      busResult := some (.symbol (mod26 ((memRead r.bwd (mod26 (x.val + r.pos.val))).val - r.pos.val))) }

/-- R77: at one position TRAVB undoes TRAVF and TRAVF undoes TRAVB, for every rotor of a READY machine. -/
def Obligations.TraversalsAreInverse : Prop :=
  ∀ (s : State) (m : Enigma) (j : Byte) (x : Symbol26), s.inv = true → s.lc = .ready m → j.toNat < m.n.toNat →
    (∃ y, exec (.travf j x) s = .next { s with busResult := some (.symbol y) } ∧
      exec (.travb j y) s = .next { s with busResult := some (.symbol x) }) ∧
    (∃ y, exec (.travb j x) s = .next { s with busResult := some (.symbol y) } ∧
      exec (.travf j y) s = .next { s with busResult := some (.symbol x) })

/-- R78: position and ring setting act only through their difference. For a rotor built from a record and standing at any
position `p`, with `RAW[k] = y`: entering at `s + p - r = k` leaves at `y - p + r` forward, and entering at
`s + p - r = y` leaves at `k - p + r` backward. The sign of the ring shift is decision D7 of the spec (log 10). -/
def Obligations.TraversalDependsOnPositionMinusRing : Prop :=
  ∀ (r : RotorRecord) (rotor : Rotor) (p x k y : Symbol26), buildRotor r = .ok rotor →
    (wiringChar r.w k).toNat = 0x41 + y.val →
    (mod26 (x.val + p.val - rotor.ring.val) = k →
      Rotor.travf { rotor with pos := p } x = mod26 (y.val - p.val + rotor.ring.val)) ∧
    (mod26 (x.val + p.val - rotor.ring.val) = y →
      Rotor.travb { rotor with pos := p } x = mod26 (k.val - p.val + rotor.ring.val))

/-- R42, U5 and R54: a micro-operation that reads the machine has no behaviour while none exists, nor on a rotor index
that is not below `N`; nor has RBUILD on an index that is not below `N_MAX` (log 11). -/
def Obligations.MicroOperationsNeedTheirMachine : Prop :=
  (∀ s : State, s.lc = .unconfigured →
    (∀ j x, exec (.travf j x) s = .fault .unbuilt ∧ exec (.travb j x) s = .fault .unbuilt) ∧
    (∀ j, exec (.notchq j) s = .fault .unbuilt ∧ exec (.rstep j) s = .fault .unbuilt) ∧
    exec .sstep s = .fault .unbuilt ∧
    ∀ x, exec (.refl x) s = .fault .unbuilt ∧ exec (.plug x) s = .fault .unbuilt) ∧
  (∀ (s : State) (m : Enigma) (j : Byte), s.lc = .ready m → m.n.toNat ≤ j.toNat →
    (∀ x, exec (.travf j x) s = .fault .noRotor ∧ exec (.travb j x) s = .fault .noRotor) ∧
    exec (.notchq j) s = .fault .noRotor ∧ exec (.rstep j) s = .fault .noRotor) ∧
  (∀ (s : State) (j : Byte) (r : RotorRecord), s.cfg.nMax.toNat ≤ j.toNat →
    exec (.rbuild j r) s = .fault .noRotor)

/-! ### The stepper -/

/-- R81: NOTCHQ returns bit `POS[i]` of `NOTCH[i]` and writes nothing. -/
def Obligations.NotchqReturnsTheNotchBit : Prop :=
  ∀ (s : State) (m : Enigma) (j : Byte) (r : Rotor), s.lc = .ready m → j.toNat < m.n.toNat →
    m.rotors[j.toNat]? = some r →
    exec (.notchq j) s = .next { s with busResult := some (.bit (r.notch.getLsbD r.pos.val)) }

/-- R82: RSTEP advances `POS[i]` by one modulo 26, and nothing else of the machine. -/
def Obligations.RstepAdvancesOneRotor : Prop :=
  ∀ (s : State) (m : Enigma) (j : Byte) (r : Rotor), s.lc = .ready m → j.toNat < m.n.toNat →
    m.rotors[j.toNat]? = some r →
    exec (.rstep j) s = .next { s with
      lc := .ready { m with rotors := m.rotors.set j.toNat { r with pos := mod26 (r.pos.val + 1) } }
      busResult := some .done }

/-- R83, R84, R85: SSTEP advances rotor 0 always, rotor 1 once if rotor 0 or rotor 1 stood on a notch before it, rotor 2
if rotor 1 did, and no other rotor. One step for two schedules is decision D27 of the spec (log 10). -/
def Obligations.SstepOutcomeTable : Prop :=
  ∀ (s : State) (m : Enigma) (r0 r1 r2 : Rotor) (more : List Rotor), s.lc = .ready m →
    m.rotors = r0 :: r1 :: r2 :: more →
    exec .sstep s = .next { s with
      lc := .ready { m with
        rotors :=
          [{ r0 with pos := mod26 (r0.pos.val + 1) },
            (if r0.notch.getLsbD r0.pos.val = true ∨ r1.notch.getLsbD r1.pos.val = true
              then { r1 with pos := mod26 (r1.pos.val + 1) } else r1),
            (if r1.notch.getLsbD r1.pos.val = true then { r2 with pos := mod26 (r2.pos.val + 1) } else r2)] ++ more }
      busResult := some .done }

/-- R86, restated precondition: with rotor 0 on a notch, rotor 1 not on a notch but one position before one, two
consecutive SSTEPs advance rotors 0 and 1 by 2 and rotor 2 by 1. -/
def Obligations.DoubleStepAnomaly : Prop :=
  ∀ (s : State) (m : Enigma) (r0 r1 r2 : Rotor) (more : List Rotor), s.lc = .ready m →
    m.rotors = r0 :: r1 :: r2 :: more →
    r0.notch.getLsbD r0.pos.val = true → r1.notch.getLsbD r1.pos.val = false →
    r1.notch.getLsbD (mod26 (r1.pos.val + 1)).val = true →
    ∃ t u, exec .sstep s = .next t ∧ exec .sstep t = .next u ∧
      u.lc = .ready { m with
        rotors :=
          [{ r0 with pos := mod26 (r0.pos.val + 2) }, { r1 with pos := mod26 (r1.pos.val + 2) },
            { r2 with pos := mod26 (r2.pos.val + 1) }] ++ more }

/-- R87 (a) and the first half of (b): 26 consecutive SSTEPs bring rotor 0 back to its position, whatever the notch sets
are; if `NOTCH[0]` is one position, exactly one of the 26 finds rotor 0 on it. -/
def Obligations.RotorZeroHasPeriod26 : Prop :=
  ∀ (m : Enigma) (r0 : Rotor) (more : List Rotor), m.rotors = r0 :: more →
    (((Enigma.sstep^[26] m).rotors[0]?).map Rotor.pos = some r0.pos) ∧
    (∀ p : Symbol26, (∀ q : Symbol26, r0.notch.getLsbD q.val = true ↔ q = p) →
      ((List.range 26).countP fun k => engagedAt (Enigma.sstep^[k] m).rotors 0) = 1)

/-- R85: no keystroke, character or message moves a rotor of index 3 or above. -/
def Obligations.RotorsBeyondTheThirdNeverStep : Prop :=
  ∀ (s t : State) (m m' : Enigma) (k : Nat), s.lc = .ready m → t.lc = .ready m' → 3 ≤ k →
    ((∃ ss, exec (.encs ss) s = .next t) ∨ (∃ cc, exec (.encc cc) s = .next t) ∨
      (∃ cs, exec (.encm cs) s = .next t) ∨ exec .sstep s = .next t) →
    m'.rotors[k]? = m.rotors[k]?

/-- R88: the new positions are a function of the old positions and of `NOTCH[0]` and `NOTCH[1]`; signal, tables and ring
settings play no part. -/
def Obligations.SteppingDependsOnPositionsAndTwoNotchSets : Prop :=
  ∀ (s s' t t' : State) (m m' n n' : Enigma), s.lc = .ready m → s'.lc = .ready m' →
    m.positions = m'.positions →
    (m.rotors.map Rotor.notch).take 2 = (m'.rotors.map Rotor.notch).take 2 →
    exec .sstep s = .next t → exec .sstep s' = .next t' → t.lc = .ready n → t'.lc = .ready n' →
    n.positions = n'.positions

/-! ### Reflector and plugboard -/

/-- R93, R102: REFL and PLUG return one entry of their table, with no position and no direction, and write nothing. -/
def Obligations.ReflectorAndPlugboardReturnOneEntry : Prop :=
  ∀ (s : State) (m : Enigma) (x : Symbol26), s.lc = .ready m →
    exec (.refl x) s = .next { s with busResult := some (.symbol (memRead m.refl x)) } ∧
    exec (.plug x) s = .next { s with busResult := some (.symbol (memRead m.plug x)) }

/-- R124: the first plugboard pass and the stepping commute, in the symbol returned and in the machine left. -/
def Obligations.PlugboardPassAndSteppingCommute : Prop :=
  ∀ (s : State) (m : Enigma) (x : Symbol26), s.lc = .ready m →
    ∃ a b c d, exec (.plug x) s = .next a ∧ exec .sstep a = .next b ∧
      exec .sstep s = .next c ∧ exec (.plug x) c = .next d ∧
      a.busResult = d.busResult ∧ b.lc = d.lc

/-! ### The engine -/

/-- R110: ENCS of a symbol is one keystroke: plugboard, SSTEP, forward through rotors 0 to N-1, reflector, backward through
rotors N-1 to 0, plugboard, all at the positions after the SSTEP; the response is OK and the symbol. -/
def Obligations.EncsIsOneKeystroke : Prop :=
  ∀ (s : State) (m : Enigma) (x : Symbol26), s.lc = .ready m →
    exec (.encs (BitVec.ofNat 8 x.val)) s = .next { s with
      lc := .ready m.sstep
      rsp := s.rsp ++ [[0x00, BitVec.ofNat 8
        (memRead m.plug
          ((m.sstep.rotors.take m.n.toNat).foldr (fun r y => r.travb y)
            (memRead m.refl
              ((m.sstep.rotors.take m.n.toNat).foldl (fun y r => r.travf y) (memRead m.plug x))))).val]] }

/-- R56 item 6: a symbol byte above 0x19 is refused with IllegalSymbol (0x41) and no rotor steps. That the answer is a next
state is the model's choice (log 7). -/
def Obligations.EncsRefusesIllegalSymbols : Prop :=
  ∀ (s : State) (m : Enigma) (ss : Byte), s.lc = .ready m → 25 < ss.toNat →
    exec (.encs ss) s = .next { s with rsp := s.rsp ++ [[0x41]] }

/-- R117: what a host command answers and what machine it leaves depend on the machine, the parameters and the operands
alone: not on earlier responses, on frames still waiting, on the bus or on a staging copy. -/
def Obligations.ResponseDependsOnTheMachineAlone : Prop :=
  ∀ (i : Instr) (s s' : State), i.isHost = true → s.lc = s'.lc → s.cfg = s'.cfg →
    ∃ t t' f, exec i s = .next t ∧ exec i s' = .next t' ∧ t.rsp = s.rsp ++ [f] ∧ t'.rsp = s'.rsp ++ [f] ∧ t.lc = t'.lc

/-- R107, R110: ENCS is its micro-operations. PLUG, SSTEP, TRAVF along the stack, REFL, TRAVB back along it and PLUG, issued
one after another, return the symbol ENCS answers with and leave the machine ENCS leaves. -/
def Obligations.EncsIsItsMicroOperations : Prop :=
  ∀ (s : State) (m : Enigma) (x : Symbol26), s.inv = true → s.lc = .ready m →
    ∃ t y u, issueKeystroke m.n.toNat x s = some (t, y) ∧
      exec (.encs (BitVec.ofNat 8 x.val)) s = .next u ∧
      u.rsp = s.rsp ++ [[0x00, BitVec.ofNat 8 y.val]] ∧ u.lc = t.lc

/-- R120: at fixed positions a keystroke is a bijection of the symbols 0 to 25: every symbol byte is answered with a symbol,
two bytes answered with the same symbol are one byte, and every symbol is the answer to some symbol byte. -/
def Obligations.KeystrokeIsABijection : Prop :=
  ∀ (s : State) (m : Enigma), s.inv = true → s.lc = .ready m →
    (∀ a : Byte, a.toNat ≤ 25 →
      ∃ (t : State) (y : Byte), exec (.encs a) s = .next t ∧ t.rsp = s.rsp ++ [[0x00, y]] ∧ y.toNat ≤ 25) ∧
    (∀ (t u : State) (a b y : Byte), exec (.encs a) s = .next t → t.rsp = s.rsp ++ [[0x00, y]] →
      exec (.encs b) s = .next u → u.rsp = s.rsp ++ [[0x00, y]] → a = b) ∧
    (∀ y : Byte, y.toNat ≤ 25 →
      ∃ (t : State) (a : Byte), a.toNat ≤ 25 ∧ exec (.encs a) s = .next t ∧ t.rsp = s.rsp ++ [[0x00, y]])

/-- R122 (a): with a reflector that is an involution, encoding the result from the same positions gives the symbol back,
and leaves the same machine. -/
def Obligations.KeystrokeIsSelfReciprocal : Prop :=
  ∀ (s t : State) (m : Enigma) (a b : Byte), s.inv = true → s.lc = .ready m → m.reciprocal →
    exec (.encs a) s = .next t → t.rsp = s.rsp ++ [[0x00, b]] →
    ∃ u, exec (.encs b) s = .next u ∧ u.rsp = s.rsp ++ [[0x00, a]] ∧ u.lc = t.lc

/-- R122 (b), R125: with a reflector that is an involution, a message that ENCM accepts without error comes back when the
positions are restored by SETPOS and the result is encoded, and the final machine is the same. -/
def Obligations.MessagesAreSelfReciprocal : Prop :=
  ∀ (s t : State) (m : Enigma) (cs out : List Byte) (ll : Byte), s.inv = true → s.lc = .ready m → m.reciprocal →
    exec (.encm cs) s = .next t → t.rsp = s.rsp ++ [0x00 :: ll :: out] →
    ∃ v u, exec (.setpos (m.positions.map zext8)) t = .next v ∧ exec (.encm out) v = .next u ∧
      u.rsp = v.rsp ++ [0x00 :: ll :: cs] ∧ u.lc = t.lc

/-- R123: with a reflector without fixed point no symbol encodes to itself. -/
def Obligations.NoSymbolEncodesToItself : Prop :=
  ∀ (s t : State) (m : Enigma) (a b : Byte), s.inv = true → s.lc = .ready m → m.fixedPointFree →
    exec (.encs a) s = .next t → t.rsp = s.rsp ++ [[0x00, b]] → b ≠ a

/-- R111: the new positions of a keystroke do not depend on the symbol. -/
def Obligations.KeystrokePositionsIgnoreTheSymbol : Prop :=
  ∀ (s t u : State) (m : Enigma) (x y : Symbol26), s.lc = .ready m →
    exec (.encs (BitVec.ofNat 8 x.val)) s = .next t → exec (.encs (BitVec.ofNat 8 y.val)) s = .next u → t.lc = u.lc

/-- R112: ENCC by the class of the character. A letter is answered with the letter of the symbol ENCS gives, and leaves
what ENCS leaves; a digit or a code of `WS` is answered with itself and nothing changes; any other code is answered with
Unencodable and nothing changes. -/
def Obligations.EnccByCharacterClass : Prop :=
  ∀ (s : State) (m : Enigma) (c : Byte), s.lc = .ready m →
    (0x41 ≤ c.toNat → c.toNat ≤ 0x5A →
      ∃ t y, exec (.encs (c - 0x41)) s = .next t ∧ t.rsp = s.rsp ++ [[0x00, y]] ∧
        exec (.encc c) s = .next { t with rsp := s.rsp ++ [[0x00, 0x41 + y]] }) ∧
    (¬ (0x41 ≤ c.toNat ∧ c.toNat ≤ 0x5A) → (0x30 ≤ c.toNat ∧ c.toNat ≤ 0x39) ∨ c ∈ s.cfg.ws →
      exec (.encc c) s = .next { s with rsp := s.rsp ++ [[0x00, c]] }) ∧
    (¬ (0x41 ≤ c.toNat ∧ c.toNat ≤ 0x5A) → ¬ ((0x30 ≤ c.toNat ∧ c.toNat ≤ 0x39) ∨ c ∈ s.cfg.ws) →
      exec (.encc c) s = .next { s with rsp := s.rsp ++ [[0x30]] })

/-- R113: ENCM is a loop of ENCC over the characters, up to the first that is Unencodable; it answers OK with the whole
output, or Unencodable with the index and the output before it. -/
def Obligations.EncmIsALoopOfEncc : Prop :=
  ∀ (s : State) (m : Enigma) (cs : List Byte), s.lc = .ready m →
    exec (.encm cs) s = .next { s with
      lc := (enccLoop s cs).1.lc
      rsp := s.rsp ++ [(if (enccLoop s cs).2.2 = true then 0x00 else 0x30) ::
        BitVec.ofNat 8 (enccLoop s cs).2.1.length :: (enccLoop s cs).2.1] }

/-- R52: a message sent in two commands gives the concatenated outputs and the same machine as one command, up to the
first error. -/
def Obligations.SplitMessagesConcatenate : Prop :=
  ∀ (s t u : State) (m : Enigma) (a b outA outB : List Byte) (la lb st : Byte), s.lc = .ready m →
    exec (.encm a) s = .next t → t.rsp = s.rsp ++ [0x00 :: la :: outA] →
    exec (.encm b) t = .next u → u.rsp = t.rsp ++ [st :: lb :: outB] →
    ∃ v, exec (.encm (a ++ b)) s = .next v ∧ v.lc = u.lc ∧
      v.rsp = s.rsp ++ [st :: BitVec.ofNat 8 (outA.length + outB.length) :: (outA ++ outB)]

/-- R118: deleting every pass-through character from a message changes neither the letters of the output nor the final
positions. -/
def Obligations.PassThroughCharactersDoNotStep : Prop :=
  ∀ (s t : State) (m : Enigma) (cs out : List Byte) (ll : Byte), s.lc = .ready m →
    exec (.encm cs) s = .next t → t.rsp = s.rsp ++ [0x00 :: ll :: out] →
    ∃ u l, exec (.encm (cs.filter Config.isLetter)) s = .next u ∧ u.lc = t.lc ∧
      u.rsp = s.rsp ++ [0x00 :: l :: out.filter Config.isLetter]

/-- R119, R134: at the first Unencodable character of a message the machine is as the characters before it left it, the
response holds their output and their count, and nothing after it is looked at. That the offending character steps nothing
is decision D30 of the spec (log 10). -/
def Obligations.UnencodableKeepsTheWorkBefore : Prop :=
  ∀ (s t : State) (m : Enigma) (a b outA : List Byte) (c la : Byte), s.lc = .ready m → isOther s.cfg c = true →
    exec (.encm a) s = .next t → t.rsp = s.rsp ++ [0x00 :: la :: outA] →
    exec (.encm (a ++ c :: b)) s = .next { t with rsp := s.rsp ++ [0x30 :: la :: outA] } ∧
      (a.length ≤ 255 → la.toNat = a.length)

/-- R114, R116: in a state that meets R26, GETPOS and GETRING answer OK and one byte for each of the `N` rotors, rotor 0
first, and change nothing. -/
def Obligations.GetposAndGetringReturnTheRegisters : Prop :=
  ∀ (s : State) (m : Enigma), s.inv = true → s.lc = .ready m →
    ∃ ps rs : List Byte, exec .getpos s = .next { s with rsp := s.rsp ++ [0x00 :: ps] } ∧
      exec .getring s = .next { s with rsp := s.rsp ++ [0x00 :: rs] } ∧
      ps.length = m.n.toNat ∧ rs.length = m.n.toNat ∧
      ∀ (i : Nat) (b c : Byte), ps[i]? = some b → rs[i]? = some c →
        ∃ r, m.rotors[i]? = some r ∧ b.toNat = r.pos.val ∧ c.toNat = r.ring.val

/-- R115: SETPOS with `N` legal positions completes: every rotor stands at its byte, nothing else of the machine changes,
and a GETPOS that follows answers those bytes. With `N` positions of which one is above 25 it is InvalidPosition, and
with another number of positions IllegalCommand (R56 item 3); then nothing changes. All or nothing is decision D23 of the
spec (log 10), and that the refusal 0x42 is answered with a next state is the model's choice (log 7). -/
def Obligations.SetposWritesAllPositionsOrNone : Prop :=
  ∀ (s : State) (m : Enigma) (ps : List Byte), s.inv = true → s.lc = .ready m →
    (ps.length = m.n.toNat → (∀ p ∈ ps, p.toNat ≤ 25) →
      ∃ m', exec (.setpos ps) s = .next { s with lc := .ready m', rsp := s.rsp ++ [[0x00]] } ∧
        m.sameConstants m' ∧ m'.positions.map (fun x => x.val) = ps.map (fun p => p.toNat) ∧
        exec .getpos { s with lc := .ready m' } = .next { s with lc := .ready m', rsp := s.rsp ++ [0x00 :: ps] }) ∧
    (ps.length = m.n.toNat → (∃ p ∈ ps, 25 < p.toNat) →
      exec (.setpos ps) s = .next { s with rsp := s.rsp ++ [[0x12]] }) ∧
    (ps.length ≠ m.n.toNat → exec (.setpos ps) s = .next { s with rsp := s.rsp ++ [[0x42]] })
end

