-- ==== Sys2Proof/Laws/State.lean ====
section
/-! SUPPORT. One lemma per field per update of State, each true by rfl, so that no later proof unfolds a record update;
and the same for the updates of a rotor and of a machine. -/

namespace Sys2Proof.Machine

variable (s : State)

/-! ### `State.respond` -/

@[simp] theorem State.respond_cfg (f : Frame) : (s.respond f).cfg = s.cfg := rfl
@[simp] theorem State.respond_lc (f : Frame) : (s.respond f).lc = s.lc := rfl
@[simp] theorem State.respond_staging (f : Frame) : (s.respond f).staging = s.staging := rfl
@[simp] theorem State.respond_inputs (f : Frame) : (s.respond f).inputs = s.inputs := rfl
@[simp] theorem State.respond_rsp (f : Frame) : (s.respond f).rsp = s.rsp ++ [f] := rfl
@[simp] theorem State.respond_bus (f : Frame) : (s.respond f).bus = s.bus := rfl
@[simp] theorem State.respond_busResult (f : Frame) : (s.respond f).busResult = s.busResult := rfl

/-! ### `State.answer` -/

@[simp] theorem State.answer_cfg (b : List Byte) : (s.answer b).cfg = s.cfg := rfl
@[simp] theorem State.answer_lc (b : List Byte) : (s.answer b).lc = s.lc := rfl
@[simp] theorem State.answer_staging (b : List Byte) : (s.answer b).staging = s.staging := rfl
@[simp] theorem State.answer_inputs (b : List Byte) : (s.answer b).inputs = s.inputs := rfl
@[simp] theorem State.answer_rsp (b : List Byte) : (s.answer b).rsp = s.rsp ++ [Status.ok.code :: b] := rfl
@[simp] theorem State.answer_bus (b : List Byte) : (s.answer b).bus = s.bus := rfl
@[simp] theorem State.answer_busResult (b : List Byte) : (s.answer b).busResult = s.busResult := rfl

/-! ### `State.raise` -/

@[simp] theorem State.raise_cfg (e : Status) : (s.raise e).cfg = s.cfg := rfl
@[simp] theorem State.raise_lc (e : Status) : (s.raise e).lc = s.lc := rfl
@[simp] theorem State.raise_staging (e : Status) : (s.raise e).staging = s.staging := rfl
@[simp] theorem State.raise_inputs (e : Status) : (s.raise e).inputs = s.inputs := rfl
@[simp] theorem State.raise_rsp (e : Status) : (s.raise e).rsp = s.rsp ++ [[e.code]] := rfl
@[simp] theorem State.raise_bus (e : Status) : (s.raise e).bus = s.bus := rfl
@[simp] theorem State.raise_busResult (e : Status) : (s.raise e).busResult = s.busResult := rfl

/-! ### `State.unitReturn` -/

@[simp] theorem State.unitReturn_cfg (r : UnitResult) : (s.unitReturn r).cfg = s.cfg := rfl
@[simp] theorem State.unitReturn_lc (r : UnitResult) : (s.unitReturn r).lc = s.lc := rfl
@[simp] theorem State.unitReturn_staging (r : UnitResult) : (s.unitReturn r).staging = s.staging := rfl
@[simp] theorem State.unitReturn_inputs (r : UnitResult) : (s.unitReturn r).inputs = s.inputs := rfl
@[simp] theorem State.unitReturn_rsp (r : UnitResult) : (s.unitReturn r).rsp = s.rsp := rfl
@[simp] theorem State.unitReturn_bus (r : UnitResult) : (s.unitReturn r).bus = s.bus := rfl
@[simp] theorem State.unitReturn_busResult (r : UnitResult) : (s.unitReturn r).busResult = some r := rfl

/-! ### `State.setMachine` -/

@[simp] theorem State.setMachine_cfg (m : Enigma) : (s.setMachine m).cfg = s.cfg := rfl
@[simp] theorem State.setMachine_lc (m : Enigma) : (s.setMachine m).lc = .ready m := rfl
@[simp] theorem State.setMachine_staging (m : Enigma) : (s.setMachine m).staging = s.staging := rfl
@[simp] theorem State.setMachine_inputs (m : Enigma) : (s.setMachine m).inputs = s.inputs := rfl
@[simp] theorem State.setMachine_rsp (m : Enigma) : (s.setMachine m).rsp = s.rsp := rfl
@[simp] theorem State.setMachine_bus (m : Enigma) : (s.setMachine m).bus = s.bus := rfl
@[simp] theorem State.setMachine_busResult (m : Enigma) : (s.setMachine m).busResult = s.busResult := rfl

/-! ### `State.destroy` -/

@[simp] theorem State.destroy_cfg : s.destroy.cfg = s.cfg := rfl
@[simp] theorem State.destroy_lc : s.destroy.lc = .unconfigured := rfl
@[simp] theorem State.destroy_staging : s.destroy.staging = Staging.empty := rfl
@[simp] theorem State.destroy_inputs : s.destroy.inputs = s.inputs := rfl
@[simp] theorem State.destroy_rsp : s.destroy.rsp = s.rsp := rfl
@[simp] theorem State.destroy_bus : s.destroy.bus = s.bus := rfl
@[simp] theorem State.destroy_busResult : s.destroy.busResult = s.busResult := rfl

/-! ### `State.applyRst` -/

@[simp] theorem State.applyRst_cfg : s.applyRst.cfg = s.cfg := rfl
@[simp] theorem State.applyRst_lc : s.applyRst.lc = .unconfigured := rfl
@[simp] theorem State.applyRst_staging : s.applyRst.staging = Staging.empty := rfl
@[simp] theorem State.applyRst_inputs : s.applyRst.inputs = s.inputs := rfl
@[simp] theorem State.applyRst_rsp : s.applyRst.rsp = s.rsp := rfl
@[simp] theorem State.applyRst_bus : s.applyRst.bus = [] := rfl
@[simp] theorem State.applyRst_busResult : s.applyRst.busResult = none := rfl

/-! ### `State.finishBuild` -/

@[simp] theorem State.finishBuild_ok_cfg (st : Staging) : (s.finishBuild (.ok st)).cfg = s.cfg := rfl
@[simp] theorem State.finishBuild_ok_lc (st : Staging) : (s.finishBuild (.ok st)).lc = s.lc := rfl
@[simp] theorem State.finishBuild_ok_staging (st : Staging) : (s.finishBuild (.ok st)).staging = st := rfl
@[simp] theorem State.finishBuild_ok_inputs (st : Staging) : (s.finishBuild (.ok st)).inputs = s.inputs := rfl
@[simp] theorem State.finishBuild_ok_rsp (st : Staging) : (s.finishBuild (.ok st)).rsp = s.rsp := rfl
@[simp] theorem State.finishBuild_ok_bus (st : Staging) : (s.finishBuild (.ok st)).bus = s.bus := rfl
@[simp] theorem State.finishBuild_ok_busResult (st : Staging) : (s.finishBuild (.ok st)).busResult = some .done := rfl
@[simp] theorem State.finishBuild_error_cfg (e : Status) : (s.finishBuild (.error e)).cfg = s.cfg := rfl
@[simp] theorem State.finishBuild_error_lc (e : Status) : (s.finishBuild (.error e)).lc = s.lc := rfl
@[simp] theorem State.finishBuild_error_staging (e : Status) : (s.finishBuild (.error e)).staging = Staging.empty := rfl
@[simp] theorem State.finishBuild_error_inputs (e : Status) : (s.finishBuild (.error e)).inputs = s.inputs := rfl
@[simp] theorem State.finishBuild_error_rsp (e : Status) : (s.finishBuild (.error e)).rsp = s.rsp := rfl
@[simp] theorem State.finishBuild_error_bus (e : Status) : (s.finishBuild (.error e)).bus = s.bus := rfl
@[simp] theorem State.finishBuild_error_busResult (e : Status) : (s.finishBuild (.error e)).busResult = some (.error e) := rfl

/-! ### Rotors -/

variable (r : Rotor)

@[simp] theorem Rotor.step_pos : r.step.pos = mod26 (r.pos.val + 1) := rfl
@[simp] theorem Rotor.step_ring : r.step.ring = r.ring := rfl
@[simp] theorem Rotor.step_notch : r.step.notch = r.notch := rfl
@[simp] theorem Rotor.step_fwd : r.step.fwd = r.fwd := rfl
@[simp] theorem Rotor.step_bwd : r.step.bwd = r.bwd := rfl
@[simp] theorem Rotor.step_constants : r.step.constants = r.constants := rfl
@[simp] theorem Rotor.step_wf : r.step.wf = r.wf := rfl
@[simp] theorem Rotor.step_tablesWf : r.step.tablesWf = r.tablesWf := rfl
@[simp] theorem Rotor.setPos_constants (p : Symbol26) : Rotor.constants { r with pos := p } = r.constants := rfl
@[simp] theorem Rotor.setPos_wf (p : Symbol26) : Rotor.wf { r with pos := p } = r.wf := rfl
@[simp] theorem Rotor.setPos_tablesWf (p : Symbol26) : Rotor.tablesWf { r with pos := p } = r.tablesWf := rfl

/-! ### The machine -/

variable (m : Enigma)

@[simp] theorem Enigma.sstep_n : m.sstep.n = m.n := rfl
@[simp] theorem Enigma.sstep_pairCap : m.sstep.pairCap = m.pairCap := rfl
@[simp] theorem Enigma.sstep_rotors : m.sstep.rotors = stepStack m.rotors := rfl
@[simp] theorem Enigma.sstep_refl : m.sstep.refl = m.refl := rfl
@[simp] theorem Enigma.sstep_plug : m.sstep.plug = m.plug := rfl
@[simp] theorem Enigma.keystroke_machine (x : Symbol26) : (m.keystroke x).1 = m.sstep := rfl
@[simp] theorem Enigma.keystroke_symbol (x : Symbol26) :
    (m.keystroke x).2 = m.sstep.signalPath (m.plugPass x) := rfl

end Sys2Proof.Machine
end

