-- ==== Sys2Proof/Laws/Tables.lean ====
section
/-! SUPPORT. The laws of `mod26`, of one table access, of the markers, and what the three builds guarantee
(00_scope.md R8, 20_memory.md R34, 40_rotor_wiring_table.md R71, 43_reflector_path.md R92, 44_plugboard_substitution.md
R100). -/

namespace Sys2Proof.Machine

/-! ### Reduction modulo 26 (00_scope.md R8) -/

/-- `mod26` answers the unique remainder. -/
theorem mod26_val (v : Int) : ((mod26 v).val : Int) = v % 26 := by
  simp only [mod26]; omega

/-- `mod26` is the one symbol congruent to its argument. -/
theorem mod26_unique (v : Int) (x : Symbol26) (h : ∃ k : Int, v - x.val = 26 * k) : mod26 v = x := by
  apply Fin.ext
  have := mod26_val v
  obtain ⟨k, hk⟩ := h
  omega

@[simp] theorem mod26_symbol (x : Symbol26) : mod26 x.val = x := mod26_unique _ _ ⟨0, by omega⟩

/-- Adding then reducing is addition of symbols. -/
theorem mod26_add (x y : Symbol26) : mod26 (x.val + y.val) = x + y := by
  apply Fin.ext
  have := mod26_val (x.val + y.val)
  rw [Fin.val_add]; omega

/-- Subtracting then reducing is subtraction of symbols. -/
theorem mod26_sub (x y : Symbol26) : mod26 (x.val - y.val) = x - y := by
  apply Fin.ext
  have := mod26_val (x.val - y.val)
  rw [Fin.val_sub]; omega

theorem mod26_succ (x : Symbol26) : mod26 (x.val + 1) = x + 1 := mod26_add x 1

theorem effectiveIndex_eq (x p : Symbol26) : effectiveIndex x p = x + p := mod26_add x p

/-- A crossing in the arithmetic of symbols (41_rotor_signal_path.md R74, R75). -/
theorem traverse_eq (t : Table) (p x : Symbol26) : traverse t p x = memRead t (x + p) - p := by
  rw [traverse, effectiveIndex_eq, mod26_sub]

/-- Crossing through a table and back through its inverse, at one position (41_rotor_signal_path.md R77). -/
theorem traverse_inverse (t u : Table) (h : ∀ x, memRead u (memRead t x) = x) (p x : Symbol26) :
    traverse u p (traverse t p x) = x := by
  simp [traverse_eq, h]

/-! ### One entry (20_memory.md R34) -/

@[simp] theorem memRead_memWrite_same (t : Table) (a v : Symbol26) : memRead (memWrite t a v) a = v := by
  simp [memRead, memWrite]

theorem memRead_memWrite_other (t : Table) {a b : Symbol26} (h : a ≠ b) (v : Symbol26) :
    memRead (memWrite t a v) b = memRead t b := by
  have : a.val ≠ b.val := fun e => h (Fin.ext e)
  simp [memRead, memWrite, this]

theorem memRead_memWrite (t : Table) (a b v : Symbol26) :
    memRead (memWrite t a v) b = if a = b then v else memRead t b := by
  split
  · subst_vars; simp
  · exact memRead_memWrite_other t ‹_› v

/-- Two tables with the same entries are one table. -/
theorem table_ext {t u : Table} (h : ∀ x, memRead t x = memRead u x) : t = u := by
  apply Vector.ext
  intro i hi
  exact h ⟨i, hi⟩

@[simp] theorem memRead_identityTable (x : Symbol26) : memRead identityTable x = x := by
  revert x; decide

/-! ### Markers (10_state.md R21) -/

@[simp] theorem marked_noMarks (x : Symbol26) : marked noMarks x = false := by
  simp [marked, noMarks]

theorem marked_mark (ms : Marks) (x y : Symbol26) : marked (mark ms x) y = (decide (x = y) || marked ms y) := by
  by_cases h : x = y
  · subst h; simp [marked, mark]
  · have : x.val ≠ y.val := fun e => h (Fin.ext e)
    simp [marked, mark, this, h]

/-! ### The wiring scan (40_rotor_wiring_table.md R67) -/

/-- What a scan that ends without raising says: the characters are letters, no image occurs twice, and none was marked
before. -/
theorem scanLetters_ok {cs : List Byte} {ms : Marks} {raw : List Symbol26} (h : scanLetters cs ms = .ok raw) :
    cs.map letterSymbol? = raw.map some ∧ raw.Nodup ∧ ∀ y ∈ raw, marked ms y = false := by
  induction cs generalizing ms raw with
  | nil => simp [scanLetters] at h; subst h; simp
  | cons c cs ih =>
    simp only [scanLetters] at h
    split at h
    · cases h
    · rename_i t ht
      split at h
      · cases h
      · rename_i hm
        split at h
        · cases h
        · rename_i raw' hr
          obtain ⟨h1, h2, h3⟩ := ih hr
          cases h
          refine ⟨by simp [ht, h1], List.nodup_cons.2 ⟨fun hmem => ?_, h2⟩, ?_⟩
          · have := h3 t hmem
            simp [marked_mark] at this
          · intro y hy
            rcases List.mem_cons.1 hy with rfl | hy
            · simpa using hm
            · have := h3 y hy
              simp [marked_mark] at this
              exact this.2

theorem scanWiring_length {w : Wiring} {raw : List Symbol26} (h : scanWiring w = .ok raw) : raw.length = 26 := by
  have := congrArg List.length (scanLetters_ok h).1
  simpa using this.symm

end Sys2Proof.Machine
end

