-- ==== Sys2Proof/Laws/Builds.lean ====
section
/-! SUPPORT. What the three builds guarantee when they complete (40_rotor_wiring_table.md R68, R71, 43_reflector_path.md
R92, 44_plugboard_substitution.md R100), and when they complete. -/

namespace Sys2Proof.Machine

/-! ### When a wiring scan completes -/

/-- The converse of `scanLetters_ok`: letters with distinct, unmarked images are scanned without raising. -/
theorem scanLetters_complete {cs : List Byte} {ms : Marks} {raw : List Symbol26}
    (hl : cs.map letterSymbol? = raw.map some) (hn : raw.Nodup) (hm : ∀ y ∈ raw, marked ms y = false) :
    scanLetters cs ms = .ok raw := by
  induction cs generalizing ms raw with
  | nil =>
    cases raw with
    | nil => rfl
    | cons y ys => simp at hl
  | cons c cs ih =>
    cases raw with
    | nil => simp at hl
    | cons y ys =>
      simp only [List.map_cons, List.cons.injEq] at hl
      obtain ⟨hy, hys⟩ := List.nodup_cons.1 hn
      have hrec : scanLetters cs (mark ms y) = .ok ys := by
        refine ih hl.2 hys fun z hz => ?_
        have hne : y ≠ z := fun e => hy (e ▸ hz)
        simp [marked_mark, hne, hm z (List.mem_cons_of_mem _ hz)]
      simp [scanLetters, hl.1, hm y, hrec]

/-! ### The rotor tables -/

theorem mod26_index_iff {k : Nat} (hk : k < 26) (ring x : Symbol26) :
    mod26 (k + ring.val) = x ↔ (x - ring).val = k := by
  have h1 : mod26 (k + ring.val) = ⟨k, hk⟩ + ring := mod26_add ⟨k, hk⟩ ring
  rw [h1]
  constructor
  · intro h; subst h; simp
  · intro h
    have : x - ring = ⟨k, hk⟩ := Fin.ext h
    rw [← this]; simp

/-- The forward table after a fill (40_rotor_wiring_table.md R68): entry `x` is the shifted image of `x - ring` where the
list reaches it, and untouched elsewhere. -/
theorem fillTables_fst (ring : Symbol26) (raw : List Symbol26) (k : Nat) (t : Table × Table)
    (hk : k + raw.length ≤ 26) (x : Symbol26) :
    memRead (fillTables ring k raw t).1 x =
      if k ≤ (x - ring).val then
        (match raw[(x - ring).val - k]? with
        | some y => y + ring
        | none => memRead t.1 x)
      else memRead t.1 x := by
  induction raw generalizing k t with
  | nil => simp [fillTables]
  | cons y raw ih =>
    simp only [List.length_cons] at hk
    have hk26 : k < 26 := by omega
    rw [fillTables, ih (k + 1) _ (by omega)]
    simp only [memRead_memWrite, mod26_index_iff hk26, mod26_add]
    by_cases h1 : k + 1 ≤ (x - ring).val
    · have h2 : (x - ring).val ≠ k := by omega
      have h3 : (x - ring).val - k = ((x - ring).val - (k + 1)) + 1 := by omega
      simp [h1, h2, h3, show k ≤ (x - ring).val by omega]
    · by_cases h2 : (x - ring).val = k
      · simp [h2]
      · simp [h1, h2, show ¬ k ≤ (x - ring).val by omega]

/-- The backward table after a fill: it leads every image of the list back to its index. -/
theorem fillTables_snd (ring : Symbol26) (raw : List Symbol26) (k : Nat) (t : Table × Table) (hn : raw.Nodup)
    (hk : k + raw.length ≤ 26) :
    (∀ (j : Nat) (y : Symbol26), raw[j]? = some y →
      memRead (fillTables ring k raw t).2 (y + ring) = mod26 ((k + j : Nat) + ring.val)) ∧
    (∀ y, y ∉ raw → memRead (fillTables ring k raw t).2 (y + ring) = memRead t.2 (y + ring)) := by
  induction raw generalizing k t with
  | nil => simp [fillTables]
  | cons z raw ih =>
    obtain ⟨hz, hn⟩ := List.nodup_cons.1 hn
    simp only [List.length_cons] at hk
    obtain ⟨ih1, ih2⟩ := ih (k + 1)
      (memWrite t.1 (mod26 (k + ring.val)) (mod26 (z.val + ring.val)),
       memWrite t.2 (mod26 (z.val + ring.val)) (mod26 (k + ring.val))) hn (by omega)
    refine ⟨fun j y hj => ?_, fun y hy => ?_⟩
    · cases j with
      | zero =>
        simp only [List.getElem?_cons_zero, Option.some.injEq] at hj
        subst hj
        rw [fillTables, ih2 z hz]
        simp [mod26_add]
      | succ j =>
        simp only [List.getElem?_cons_succ] at hj
        rw [fillTables, ih1 j y hj]
        congr 2
        omega
    · have hne : z ≠ y := fun e => hy (e ▸ List.mem_cons_self)
      have hy' : y ∉ raw := fun hmem => hy (List.mem_cons_of_mem _ hmem)
      rw [fillTables, ih2 y hy']
      simp [mod26_add, memRead_memWrite, hne]

/-- A complete list of 26 distinct images fills tables that are inverse to each other (40_rotor_wiring_table.md R71). -/
theorem fillTables_inverse (ring : Symbol26) (raw : List Symbol26) (hl : raw.length = 26) (hn : raw.Nodup)
    (t : Table × Table) (x : Symbol26) :
    memRead (fillTables ring 0 raw t).2 (memRead (fillTables ring 0 raw t).1 x) = x := by
  have hx : (x - ring).val < raw.length := by rw [hl]; exact (x - ring).isLt
  have h1 := fillTables_fst ring raw 0 t (by omega) x
  rw [List.getElem?_eq_getElem (by simpa using hx)] at h1
  simp only [Nat.zero_le, if_true] at h1
  rw [h1, (fillTables_snd ring raw 0 t hn (by omega)).1 _ _ (List.getElem?_eq_getElem (by simpa using hx))]
  have : ((0 + ((x - ring).val - 0) : Nat) : Int) + (ring.val : Int) = (x - ring).val + ring.val := by omega
  rw [this, mod26_add]
  simp

/-- A left inverse on 26 symbols is an inverse. -/
theorem inverse_symm {t u : Table} (h : ∀ x, memRead u (memRead t x) = x) (x : Symbol26) :
    memRead t (memRead u x) = x := by
  have hinj : Function.Injective (memRead t) := Function.LeftInverse.injective h
  obtain ⟨y, rfl⟩ := (Finite.injective_iff_surjective.1 hinj) x
  rw [h]

theorem notchCount_le_two (nv n0 n1 : Byte) : notchCount (notchMask nv n0 n1) ≤ 2 := by
  have hone : ∀ (v : Bool) (p : Byte), ∀ q, q < 26 → (slotMask v p).getLsbD q = true → q = p.toNat := by
    intro v p q hq h
    unfold slotMask at h
    split at h
    · simp only [BitVec.getLsbD_shiftLeft, BitVec.getLsbD_one] at h
      simp at h
      omega
    · simp at h
  have hsub : ((List.range 26).filter fun p => (notchMask nv n0 n1).getLsbD p) ⊆ [n0.toNat, n1.toNat] := by
    intro q hq
    simp only [List.mem_filter, List.mem_range, notchMask, BitVec.getLsbD_or, Bool.or_eq_true] at hq
    rcases hq with ⟨hq, h | h⟩
    · simp [hone _ _ q hq h]
    · simp [hone _ _ q hq h]
  have hnd : ((List.range 26).filter fun p => (notchMask nv n0 n1).getLsbD p).Nodup :=
    List.nodup_range.filter _
  have := (List.subperm_of_subset hnd hsub).length_le
  rw [notchCount, List.countP_eq_length_filter]
  simpa using this

/-- What RBUILD guarantees when it completes (40_rotor_wiring_table.md R71). -/
theorem buildRotor_wf {r : RotorRecord} {rotor : Rotor} (h : buildRotor r = .ok rotor) : rotor.wf = true := by
  simp only [buildRotor] at h
  split at h
  · cases h
  · rename_i raw hraw
    repeat' (split at h; · cases h)
    cases h
    have hl := scanWiring_length hraw
    have hn := (scanLetters_ok hraw).2.1
    have hinv := fun ring => fillTables_inverse ring raw hl hn (blankTable, blankTable)
    simp only [Rotor.wf, Rotor.tablesWf, Bool.and_eq_true, decide_eq_true_eq]
    exact ⟨⟨hinv _, inverse_symm (hinv _)⟩, notchCount_le_two _ _ _⟩

/-! ### The reflector table -/

/-- The reflector table holds the images as given (43_reflector_path.md R92). -/
theorem fillPlain_read (raw : List Symbol26) (k : Nat) (t : Table) (hk : k + raw.length ≤ 26) (x : Symbol26) :
    memRead (fillPlain k raw t) x =
      if k ≤ x.val then
        (match raw[x.val - k]? with
        | some y => y
        | none => memRead t x)
      else memRead t x := by
  induction raw generalizing k t with
  | nil => simp [fillPlain]
  | cons y raw ih =>
    simp only [List.length_cons] at hk
    have hk26 : k < 26 := by omega
    have hidx : mod26 k = x ↔ x.val = k := by
      rw [show ((k : Nat) : Int) = ((⟨k, hk26⟩ : Symbol26).val : Int) from rfl, mod26_symbol]
      constructor
      · intro h; rw [← h]
      · intro h; exact Fin.ext h.symm
    rw [fillPlain, ih (k + 1) _ (by omega)]
    simp only [memRead_memWrite, hidx]
    by_cases h1 : k + 1 ≤ x.val
    · have h2 : x.val ≠ k := by omega
      have h3 : x.val - k = (x.val - (k + 1)) + 1 := by omega
      simp [h1, h2, h3, show k ≤ x.val by omega]
    · by_cases h2 : x.val = k
      · simp [h2]
      · simp [h1, h2, show ¬ k ≤ x.val by omega]

/-- On success `REFL` is a bijection of the symbols (43_reflector_path.md R92). -/
theorem buildReflector_injective {wiring : Wiring} {t : Table} (h : buildReflector wiring = .ok t) (x y : Symbol26)
    (hxy : memRead t x = memRead t y) : x = y := by
  simp only [buildReflector] at h
  split at h
  · cases h
  · rename_i raw hraw
    cases h
    have hl := scanWiring_length hraw
    have hn := (scanLetters_ok hraw).2.1
    have hx : x.val < raw.length := by rw [hl]; exact x.isLt
    have hy : y.val < raw.length := by rw [hl]; exact y.isLt
    rw [fillPlain_read _ _ _ (by omega), fillPlain_read _ _ _ (by omega)] at hxy
    simp only [Nat.zero_le, if_true, Nat.sub_zero, List.getElem?_eq_getElem hx, List.getElem?_eq_getElem hy] at hxy
    exact Fin.ext ((List.Nodup.getElem_inj_iff hn).1 hxy)

/-! ### The plugboard table -/

/-- The table is symmetric and moves exactly the marked symbols (44_plugboard_substitution.md R100). -/
structure PlugInv (used : Marks) (t : Table) : Prop where
  involutive : ∀ x, memRead t (memRead t x) = x
  moved : ∀ x, (memRead t x ≠ x) ↔ marked used x = true

theorem plugInv_start : PlugInv noMarks identityTable := ⟨by simp, by simp⟩

theorem plugInv_pair {used : Marks} {t : Table} (h : PlugInv used t) {x y : Symbol26} (hxy : x ≠ y)
    (hx : marked used x = false) (hy : marked used y = false) :
    PlugInv (mark (mark used x) y) (memWrite (memWrite t x y) y x) := by
  have hfx : memRead t x = x := by
    by_contra hne
    simp [(h.moved x).1 hne] at hx
  have hfy : memRead t y = y := by
    by_contra hne
    simp [(h.moved y).1 hne] at hy
  have hother : ∀ z, z ≠ x → memRead t z ≠ x := by
    intro z hz he
    have := h.involutive z
    rw [he, hfx] at this
    exact hz this.symm
  have hother' : ∀ z, z ≠ y → memRead t z ≠ y := by
    intro z hz he
    have := h.involutive z
    rw [he, hfy] at this
    exact hz this.symm
  constructor
  · intro z
    by_cases hzy : z = y
    · subst hzy
      simp [memRead_memWrite, Ne.symm hxy]
    · by_cases hzx : z = x
      · subst hzx
        simp [memRead_memWrite, Ne.symm hxy]
      · have h1 : memRead (memWrite (memWrite t x y) y x) z = memRead t z := by
          rw [memRead_memWrite_other _ (Ne.symm hzy), memRead_memWrite_other _ (Ne.symm hzx)]
        rw [h1, memRead_memWrite_other _ (Ne.symm (hother' z hzy)), memRead_memWrite_other _ (Ne.symm (hother z hzx)),
          h.involutive]
  · intro z
    by_cases hzy : z = y
    · subst hzy
      simp [marked_mark, hxy]
    · by_cases hzx : z = x
      · subst hzx
        simp [marked_mark, memRead_memWrite, Ne.symm hxy]
      · rw [memRead_memWrite_other _ (Ne.symm hzy), memRead_memWrite_other _ (Ne.symm hzx)]
        simp [marked_mark, Ne.symm hzy, Ne.symm hzx, h.moved z]

/-- A number is the symbol it stands for. -/
theorem symbolOfByte?_val {b : Byte} {x : Symbol26} (h : symbolOfByte? b = some x) : x.val = b.toNat := by
  simp only [symbolOfByte?, symbolOfNat?] at h
  split at h
  · cases h; rfl
  · cases h

/-- Placing a pair of fresh symbols moves two symbols more. -/
theorem movedCount_pair {used : Marks} {t : Table} (h : PlugInv used t) {x y : Symbol26} (hxy : x ≠ y)
    (hx : marked used x = false) (hy : marked used y = false) :
    movedCount (memWrite (memWrite t x y) y x) = movedCount t + 2 := by
  have h' := plugInv_pair h hxy hx hy
  have card : ∀ u : Table, movedCount u = (Finset.univ.filter fun z => memRead u z ≠ z).card := by
    intro u
    rw [movedCount, List.countP_eq_length_filter, ← List.toFinset_card_of_nodup ((List.nodup_finRange 26).filter _)]
    congr 1
    ext z
    simp
  have hset : (Finset.univ.filter fun z => memRead (memWrite (memWrite t x y) y x) z ≠ z) =
      insert x (insert y (Finset.univ.filter fun z => memRead t z ≠ z)) := by
    ext z
    simp only [Finset.mem_filter, Finset.mem_univ, true_and, Finset.mem_insert, h'.moved z, h.moved z, marked_mark,
      Bool.or_eq_true, decide_eq_true_eq]
    constructor
    · rintro (rfl | rfl | hz)
      · exact .inr (.inl rfl)
      · exact .inl rfl
      · exact .inr (.inr hz)
    · rintro (rfl | rfl | hz)
      · exact .inr (.inl rfl)
      · exact .inl rfl
      · exact .inr (.inr hz)
  have hny : y ∉ (Finset.univ.filter fun z => memRead t z ≠ z) := by simp [h.moved y, hy]
  have hnx : x ∉ insert y (Finset.univ.filter fun z => memRead t z ≠ z) := by simp [hxy, h.moved x, hx]
  rw [card, card, hset, Finset.card_insert_of_notMem hnx, Finset.card_insert_of_notMem hny]

theorem placePairs_inv {ps : List Pair} {used : Marks} {t u : Table} (h : PlugInv used t)
    (hp : placePairs ps used t = .ok u) :
    (∃ used', PlugInv used' u) ∧ movedCount u = movedCount t + 2 * ps.length := by
  induction ps generalizing used t with
  | nil => simp only [placePairs] at hp; cases hp; exact ⟨⟨used, h⟩, rfl⟩
  | cons p ps ih =>
    obtain ⟨a, b⟩ := p
    simp only [placePairs] at hp
    split at hp
    · cases hp
    · rename_i hab
      split at hp
      · cases hp
      · rename_i x hx
        split at hp
        · cases hp
        · rename_i y hy
          split at hp
          · cases hp
          · rename_i hu
            simp only [Bool.or_eq_true, not_or, Bool.not_eq_true] at hu
            have hxy : x ≠ y := by
              intro he
              have h1 := symbolOfByte?_val hx
              have h2 := symbolOfByte?_val hy
              rw [← he] at h2
              exact hab (BitVec.eq_of_toNat_eq (h1.symm.trans h2))
            obtain ⟨hi, hc⟩ := ih (plugInv_pair h hxy hu.1 hu.2) hp
            refine ⟨hi, ?_⟩
            rw [hc, movedCount_pair h hxy hu.1 hu.2, List.length_cons]
            omega

theorem movedCount_le (t : Table) : movedCount t ≤ 26 := by
  have := List.countP_le_length (p := fun x => memRead t x != x) (l := List.finRange 26)
  simpa [movedCount] using this

theorem movedCount_identity : movedCount identityTable = 0 := by
  simp [movedCount]

/-- What PBUILD guarantees when it completes (44_plugboard_substitution.md R100). -/
theorem buildPlugboard_ok {cap : Byte} {ps : List Pair} {t : Table} (h : buildPlugboard cap ps = .ok t) :
    (∀ x, memRead t (memRead t x) = x) ∧ movedCount t = 2 * ps.length ∧ ps.length ≤ cap.toNat ∧
      movedCount t ≤ 2 * min cap.toNat Config.pairMax := by
  simp only [buildPlugboard] at h
  split at h
  · cases h
  · rename_i hcap
    obtain ⟨⟨_, hi⟩, hc⟩ := placePairs_inv plugInv_start h
    have h26 := movedCount_le t
    rw [movedCount_identity] at hc
    refine ⟨hi.involutive, by omega, by omega, ?_⟩
    have : Config.pairMax = 13 := rfl
    omega

end Sys2Proof.Machine
end

