-- ==== Sys2Proof/Laws/Engine.lean ====
section
/-! SUPPORT. What stepping, encoding, building and every operation can do to the machine, said once: nothing but
positions change in READY (10_state.md R25), and only CONFIG makes or destroys a machine (10_state.md R11). -/

namespace Sys2Proof.Machine

/-! ### Positions only -/

/-- Same constants: an equivalence. -/
theorem Enigma.sameConstants_refl (m : Enigma) : m.sameConstants m := ⟨rfl, rfl, rfl, rfl, rfl⟩

theorem Enigma.sameConstants_trans {a b c : Enigma} (h : a.sameConstants b) (k : b.sameConstants c) :
    a.sameConstants c :=
  ⟨k.1.trans h.1, k.2.1.trans h.2.1, k.2.2.1.trans h.2.2.1, k.2.2.2.1.trans h.2.2.2.1, k.2.2.2.2.trans h.2.2.2.2⟩

theorem stepAt_constants (i : Nat) (rs : List Rotor) : (stepAt i rs).map Rotor.constants = rs.map Rotor.constants := by
  induction rs generalizing i with
  | nil => cases i <;> rfl
  | cons r rs ih =>
    cases i with
    | zero => simp [stepAt]
    | succ i => simpa [stepAt] using ih i

/-- SSTEP changes positions only. -/
theorem stepStack_constants (rs : List Rotor) : (stepStack rs).map Rotor.constants = rs.map Rotor.constants := by
  simp only [stepStack]
  split <;> split <;> simp [stepAt_constants]

theorem Enigma.sstep_sameConstants (m : Enigma) : m.sameConstants m.sstep :=
  ⟨rfl, rfl, rfl, rfl, stepStack_constants m.rotors⟩

theorem setPositions_constants (ps : List Symbol26) (rs : List Rotor) :
    (setPositions ps rs).map Rotor.constants = rs.map Rotor.constants := by
  induction rs generalizing ps with
  | nil => cases ps <;> rfl
  | cons r rs ih => cases ps <;> simp [setPositions, ih]

/-- One character changes positions only (45_enigma_engine.md R112). -/
theorem Enigma.encodeChar_sameConstants {cfg : Config} {m m' : Enigma} {c d : Byte}
    (h : m.encodeChar cfg c = some (m', d)) : m.sameConstants m' := by
  simp only [Enigma.encodeChar] at h
  split at h <;> cases h
  · exact m.sstep_sameConstants
  · exact m.sameConstants_refl
  · exact m.sameConstants_refl

/-- A message changes positions only (45_enigma_engine.md R113). -/
theorem Enigma.encodeChars_sameConstants (cfg : Config) (m : Enigma) (cs : List Byte) :
    m.sameConstants (m.encodeChars cfg cs).machine := by
  induction cs generalizing m with
  | nil => exact m.sameConstants_refl
  | cons c cs ih =>
    simp only [Enigma.encodeChars]
    split
    · exact m.sameConstants_refl
    · exact Enigma.sameConstants_trans (Enigma.encodeChar_sameConstants ‹_›) (ih _)

/-- Every operation on a machine that exists keeps the form of its table memories: none writes a table. -/
theorem Memory.wf_of_sameConstants {m m' : Enigma} (h : m.sameConstants m') : Memory.wf m' = Memory.wf m := by
  obtain ⟨-, h2, h3, h4, h5⟩ := h
  have htw : m'.rotors.all Rotor.tablesWf = m.rotors.all Rotor.tablesWf := by
    have := congrArg (fun l => l.all (fun k : Symbol26 × BitVec 26 × Table × Table =>
      Rotor.tablesWf ⟨0, k.1, k.2.1, k.2.2.1, k.2.2.2⟩)) h5
    have e : ∀ r : Rotor, Rotor.tablesWf ⟨0, r.constants.1, r.constants.2.1, r.constants.2.2.1, r.constants.2.2.2⟩ =
        r.tablesWf := fun r => rfl
    simpa [List.all_map, Function.comp_def, e] using this
  simp only [Memory.wf, h2, h3, h4, htw]

/-- R26 speaks of the constants only (positions are symbols by type). -/
theorem Enigma.wf_of_sameConstants {cfg : Config} {m m' : Enigma} (h : m.sameConstants m') : m'.wf cfg = m.wf cfg := by
  have h' := h
  obtain ⟨h1, -, -, -, h5⟩ := h
  have hlen : m'.rotors.length = m.rotors.length := by simpa using congrArg List.length h5
  have hwf : m'.rotors.all Rotor.wf = m.rotors.all Rotor.wf := by
    have := congrArg (fun l => l.all (fun k : Symbol26 × BitVec 26 × Table × Table =>
      Rotor.wf ⟨0, k.1, k.2.1, k.2.2.1, k.2.2.2⟩)) h5
    have e : ∀ r : Rotor, Rotor.wf ⟨0, r.constants.1, r.constants.2.1, r.constants.2.2.1, r.constants.2.2.2⟩ =
        r.wf := fun r => rfl
    simpa [List.all_map, Function.comp_def, e] using this
  simp only [Enigma.wf, Memory.wf_of_sameConstants h', h1, hlen, hwf]

/-! ### What CONFIG builds -/

/-- The rotors are those of the records, one by one. -/
theorem buildRotors_ok {recs : List RotorRecord} {rotors : List Rotor} (h : buildRotors recs = .ok rotors) :
    recs.map buildRotor = rotors.map Except.ok := by
  induction recs generalizing rotors with
  | nil => cases h; rfl
  | cons r recs ih =>
    simp only [buildRotors] at h
    split at h
    · cases h
    · rename_i rotor hr
      split at h
      · cases h
      · rename_i rs hrs
        cases h
        simp [hr, ih hrs]

/-- What an accepted CONFIG has built when no build raised: `N`, `PAIR_CAP`, every rotor of its record, the reflector and
the plugboard. -/
theorem buildMachine_ok {cap : Byte} {recs : List RotorRecord} {wiring : Wiring} {pairs : List Pair} {m : Enigma}
    (h : buildMachine cap recs wiring pairs = .ok m) :
    m.n = countByte recs.length ∧ m.pairCap = cap ∧ Config.nMin ≤ recs.length ∧
      recs.map buildRotor = m.rotors.map Except.ok ∧ buildReflector wiring = .ok m.refl ∧
      buildPlugboard cap pairs = .ok m.plug := by
  simp only [buildMachine] at h
  split at h
  · cases h
  · rename_i hn
    split at h
    · cases h
    · rename_i rotors hrotors
      split at h
      · cases h
      · rename_i refl hrefl
        split at h
        · cases h
        · rename_i plug hplug
          cases h
          exact ⟨rfl, rfl, by omega, buildRotors_ok hrotors, hrefl, hplug⟩

/-- The machine an accepted CONFIG installs meets R26. -/
theorem buildMachine_wf {cfg : Config} {cap : Byte} {recs : List RotorRecord} {wiring : Wiring} {pairs : List Pair}
    {m : Enigma} (hmax : recs.length ≤ cfg.nMax.toNat) (h : buildMachine cap recs wiring pairs = .ok m) :
    m.wf cfg = true := by
  obtain ⟨hcount, hcap, hn, hr, hf, hp⟩ := buildMachine_ok h
  have hlen : m.rotors.length = recs.length := by simpa using (congrArg List.length hr).symm
  have hbyte : m.n.toNat = recs.length := by
    have := cfg.nMax.isLt
    rw [hcount, countByte, BitVec.toNat_ofNat]
    omega
  have hwf : ∀ r ∈ m.rotors, r.wf = true := by
    intro r hmem
    have : (Except.ok r : Except Status Rotor) ∈ recs.map buildRotor := by
      rw [hr]; exact List.mem_map_of_mem hmem
    obtain ⟨rcd, -, hrec⟩ := List.mem_map.1 this
    exact buildRotor_wf hrec
  obtain ⟨hp1, -, -, hp2⟩ := buildPlugboard_ok hp
  simp only [Enigma.wf, Memory.wf, Bool.and_eq_true, decide_eq_true_eq, List.all_eq_true]
  refine ⟨⟨⟨⟨?_, ?_⟩, ?_⟩, hwf⟩, ⟨⟨?_, ?_⟩, hp1⟩, hcap ▸ hp2⟩
  · omega
  · omega
  · omega
  · intro r hmem
    have := hwf r hmem
    simp only [Rotor.wf, Bool.and_eq_true] at this
    exact this.1
  · exact fun x y => buildReflector_injective hf x y

/-- CONFIG, the one operation that makes table memories, makes them of the form R26 asks. -/
theorem Memory.wf_of_build {cfg : Config} {cap : Byte} {recs : List RotorRecord} {wiring : Wiring} {pairs : List Pair}
    {m : Enigma} (hmax : recs.length ≤ cfg.nMax.toNat) (h : buildMachine cap recs wiring pairs = .ok m) :
    Memory.wf m = true := by
  have := buildMachine_wf hmax h
  simp only [Enigma.wf, Bool.and_eq_true] at this
  exact this.2

/-! ### The staging copy -/

@[simp] theorem allBuilt_map_some (rs : List Rotor) : allBuilt (rs.map some) = some rs := by
  induction rs with
  | nil => rfl
  | cons r rs ih => simp [allBuilt, ih]

/-- RBUILD into the slot after the last keeps a complete staging copy complete. -/
theorem setSlot_length (rs : List Rotor) (r : Rotor) : setSlot rs.length r (rs.map some) = (rs ++ [r]).map some := by
  induction rs with
  | nil => rfl
  | cons x rs ih => simp [setSlot, ih]

/-! ### What an operation can do -/

/-- CONFIG, the one operation that makes and destroys machines. -/
def Instr.isConfig : Instr → Bool
  | .config _ _ _ _ => true
  | _ => false

/-- What one operation can do to the lifecycle and the machine. -/
inductive LifeChange (cfg : Config) (i : Instr) : Life → Life → Prop
  /-- Nothing. -/
  | same (l : Life) : LifeChange cfg i l l
  /-- Positions change, and nothing else. -/
  | moved (m m' : Enigma) (h : m.sameConstants m') : LifeChange cfg i (.ready m) (.ready m')
  /-- CONFIG installs a machine that meets R26. -/
  | built (l : Life) (m : Enigma) (hi : Instr.isConfig i = true) (h : m.wf cfg = true) : LifeChange cfg i l (.ready m)
  /-- CONFIG fails and leaves none. -/
  | destroyed (l : Life) (hi : Instr.isConfig i = true) : LifeChange cfg i l .unconfigured

/-- What an operation that answers a next state leaves: the parameters, the host's inputs and the bus as they were, the
responses returned before still there, and the machine changed as `LifeChange` says. -/
structure OpFrame (i : Instr) (s t : State) : Prop where
  cfg : t.cfg = s.cfg
  inputs : t.inputs = s.inputs
  bus : t.bus = s.bus
  rsp : t.rsp = s.rsp ∨ ∃ f, t.rsp = s.rsp ++ [f]
  life : LifeChange s.cfg i s.lc t.lc

theorem whenReady_frame {i : Instr} {s t : State} {k : Enigma → Result} (h : s.whenReady k = .next t)
    (hk : ∀ m, s.lc = .ready m → k m = .next t → OpFrame i s t) : OpFrame i s t := by
  simp only [State.whenReady] at h
  split at h
  · cases h
    exact ⟨rfl, rfl, rfl, .inr ⟨_, rfl⟩, .same _⟩
  · exact hk _ ‹_› h

theorem withMachine_frame {i : Instr} {s t : State} {k : Enigma → Result} (h : s.withMachine k = .next t)
    (hk : ∀ m, s.lc = .ready m → k m = .next t → OpFrame i s t) : OpFrame i s t := by
  simp only [State.withMachine] at h
  split at h
  · cases h
  · exact hk _ ‹_› h

theorem withRotor_frame {i : Instr} {s t : State} {j : Byte} {k : Enigma → Rotor → Result}
    (h : s.withRotor j k = .next t)
    (hk : ∀ m r, s.lc = .ready m → k m r = .next t → OpFrame i s t) : OpFrame i s t := by
  refine withMachine_frame h fun m hm hk' => ?_
  split at hk'
  · cases hk'
  · exact hk m _ hm hk'

theorem finishBuild_frame (i : Instr) (s : State) (r : Except Status Staging) : OpFrame i s (s.finishBuild r) := by
  cases r <;> exact ⟨rfl, rfl, rfl, .inl rfl, .same _⟩

theorem unitReturn_frame (i : Instr) (s : State) (r : UnitResult) : OpFrame i s (s.unitReturn r) :=
  ⟨rfl, rfl, rfl, .inl rfl, .same _⟩

theorem respond_frame (i : Instr) (s : State) (f : Frame) : OpFrame i s (s.respond f) :=
  ⟨rfl, rfl, rfl, .inr ⟨f, rfl⟩, .same _⟩

/-- A machine moved to other positions, with a response. -/
theorem moved_respond_frame (i : Instr) {s : State} {m m' : Enigma} (hm : s.lc = .ready m) (h : m.sameConstants m')
    (f : Frame) : OpFrame i s ((s.setMachine m').respond f) :=
  ⟨rfl, rfl, rfl, .inr ⟨f, rfl⟩, by simpa [hm] using LifeChange.moved m m' h⟩

/-- A machine moved to other positions, by a micro-operation. -/
theorem moved_unitReturn_frame (i : Instr) {s : State} {m m' : Enigma} (hm : s.lc = .ready m) (h : m.sameConstants m')
    (r : UnitResult) : OpFrame i s ((s.setMachine m').unitReturn r) :=
  ⟨rfl, rfl, rfl, .inl rfl, by simpa [hm] using LifeChange.moved m m' h⟩

/-- Said once of every operation: what it can do when it answers a next state. -/
theorem exec_frame {i : Instr} {s t : State} (h : exec i s = .next t) : OpFrame i s t := by
  cases i with
  | config cap recs wiring pairs =>
    simp only [exec, execConfig] at h
    split at h
    · cases h; exact respond_frame _ _ _
    · rename_i hmax
      split at h
      · cases h
        exact ⟨rfl, rfl, rfl, .inr ⟨_, rfl⟩, .destroyed _ rfl⟩
      · rename_i m hm
        cases h
        exact ⟨rfl, rfl, rfl, .inr ⟨_, rfl⟩, .built _ m rfl (buildMachine_wf (cfg := s.cfg) (by omega) hm)⟩
  | encs ss =>
    refine whenReady_frame h fun m hm h => ?_
    split at h <;> cases h
    · exact respond_frame _ _ _
    · exact moved_respond_frame _ hm m.sstep_sameConstants _
  | encc cc =>
    refine whenReady_frame h fun m hm h => ?_
    split at h <;> cases h
    · exact respond_frame _ _ _
    · exact moved_respond_frame _ hm (Enigma.encodeChar_sameConstants ‹_›) _
  | encm cs =>
    refine whenReady_frame h fun m hm h => ?_
    cases h
    exact moved_respond_frame _ hm (m.encodeChars_sameConstants _ _) _
  | getpos =>
    refine whenReady_frame h fun m hm h => ?_
    cases h; exact respond_frame _ _ _
  | setpos ps =>
    refine whenReady_frame h fun m hm h => ?_
    split at h
    · split at h <;> cases h
      · exact respond_frame _ _ _
      · exact moved_respond_frame (m' := { m with rotors := setPositions _ m.rotors }) _ hm
          ⟨rfl, rfl, rfl, rfl, setPositions_constants _ _⟩ _
    · cases h; exact respond_frame _ _ _
  | getring =>
    refine whenReady_frame h fun m hm h => ?_
    cases h; exact respond_frame _ _ _
  | rbuild j r =>
    simp only [exec, execRbuild] at h
    split at h <;> cases h
    exact finishBuild_frame _ _ _
  | travf j x => exact withRotor_frame h fun m r _ h => by cases h; exact unitReturn_frame _ _ _
  | travb j x => exact withRotor_frame h fun m r _ h => by cases h; exact unitReturn_frame _ _ _
  | notchq j => exact withRotor_frame h fun m r _ h => by cases h; exact unitReturn_frame _ _ _
  | rstep j =>
    refine withRotor_frame h fun m r hm h => ?_
    cases h
    exact moved_unitReturn_frame (m' := { m with rotors := stepAt j.toNat m.rotors }) _ hm
      ⟨rfl, rfl, rfl, rfl, stepAt_constants _ _⟩ _
  | sstep =>
    refine withMachine_frame h fun m hm h => ?_
    cases h
    exact moved_unitReturn_frame _ hm m.sstep_sameConstants _
  | fbuild wiring => cases h; exact finishBuild_frame _ _ _
  | refl x => exact withMachine_frame h fun m _ h => by cases h; exact unitReturn_frame _ _ _
  | pbuild cap pairs => cases h; exact finishBuild_frame _ _ _
  | plug x => exact withMachine_frame h fun m _ h => by cases h; exact unitReturn_frame _ _ _

end Sys2Proof.Machine
end

