-- ==== Sys2Proof/Laws/Stepper.lean ====
section
/-! SUPPORT. What one SSTEP does to a stack (42_rotor_stepper.md R83, R85, R87, R88), said once. -/

namespace Sys2Proof.Machine

@[simp] theorem stepAt_length (i : Nat) (rs : List Rotor) : (stepAt i rs).length = rs.length := by
  simp [stepAt]

@[simp] theorem stepStack_length (rs : List Rotor) : (stepStack rs).length = rs.length := by
  simp only [stepStack]
  split <;> split <;> simp

theorem stepAt_getElem? (i k : Nat) (rs : List Rotor) :
    (stepAt i rs)[k]? = if i = k then rs[k]?.map Rotor.step else rs[k]? := by
  rw [stepAt, List.getElem?_modify]
  split <;> simp

/-- The three steps of SSTEP for given schedules (42_rotor_stepper.md R83). -/
theorem scheduled_getElem? (sched1 sched2 : Bool) (rs : List Rotor) (k : Nat) :
    (if sched2 = true then stepAt 2 (if sched1 = true then stepAt 1 (stepAt 0 rs) else stepAt 0 rs)
      else if sched1 = true then stepAt 1 (stepAt 0 rs) else stepAt 0 rs)[k]? =
      if k = 0 ∨ (k = 1 ∧ sched1 = true) ∨ (k = 2 ∧ sched2 = true) then rs[k]?.map Rotor.step else rs[k]? := by
  rcases k with _ | _ | _ | k <;> cases sched1 <;> cases sched2 <;> simp [stepAt_getElem?]

/-- SSTEP of rotor `k`, for any stack: the guard says when it moves. -/
theorem stepStack_getElem? (rs : List Rotor) (k : Nat) :
    (stepStack rs)[k]? =
      if k = 0 ∨ (k = 1 ∧ (engagedAt rs 0 || engagedAt rs 1) = true) ∨ (k = 2 ∧ engagedAt rs 1 = true)
      then rs[k]?.map Rotor.step else rs[k]? :=
  scheduled_getElem? _ _ rs k

/-- Rotor 0 always moves. -/
theorem stepStack_zero (rs : List Rotor) : (stepStack rs)[0]? = rs[0]?.map Rotor.step := by
  simp [stepStack_getElem?]

/-- The outcome of SSTEP on a stack of at least three rotors (42_rotor_stepper.md R84). -/
theorem stepStack_cons (r0 r1 r2 : Rotor) (more : List Rotor) :
    stepStack (r0 :: r1 :: r2 :: more) =
      r0.step :: (if (r0.engaged || r1.engaged) = true then r1.step else r1) ::
        (if r1.engaged = true then r2.step else r2) :: more := by
  simp only [stepStack, sampleFlags, engagedAt, stepAt]
  cases h0 : r0.engaged <;> cases h1 : r1.engaged <;> simp [h0, h1]

/-- What `k` keystrokes leave of rotor 0: only its position changes, by `k` modulo 26. -/
theorem Enigma.sstep_iterate_zero (m : Enigma) (r0 : Rotor) (more : List Rotor) (h : m.rotors = r0 :: more) (k : Nat) :
    (Enigma.sstep^[k] m).rotors[0]? = some { r0 with pos := mod26 (r0.pos.val + k) } := by
  induction k with
  | zero => simp [h]
  | succ k ih =>
    rw [Function.iterate_succ_apply', Enigma.sstep_rotors, stepStack_zero, ih]
    simp only [Option.map_some, Rotor.step]
    congr 2
    apply (mod26_unique _ _ _)
    have h1 := mod26_val (r0.pos.val + k)
    have h2 := mod26_val (r0.pos.val + ((k + 1 : Nat) : Int))
    refine ⟨((mod26 (r0.pos.val + k)).val + 1 - (mod26 (r0.pos.val + ((k + 1 : Nat) : Int))).val) / 26, ?_⟩
    omega

/-- SSTEP on positions and the two notch sets it samples: stacks that agree on those leave the same positions
(42_rotor_stepper.md R88). -/
theorem stepStack_positions {rs rs' : List Rotor} (hp : rs.map Rotor.pos = rs'.map Rotor.pos)
    (hn : (rs.map Rotor.notch).take 2 = (rs'.map Rotor.notch).take 2) :
    (stepStack rs).map Rotor.pos = (stepStack rs').map Rotor.pos := by
  have hpk : ∀ k : Nat, rs[k]?.map Rotor.pos = rs'[k]?.map Rotor.pos := fun k => by
    simpa using congrArg (fun l : List Symbol26 => l[k]?) hp
  have hnk : ∀ k : Nat, k < 2 → rs[k]?.map Rotor.notch = rs'[k]?.map Rotor.notch := fun k hk => by
    simpa [List.getElem?_take, hk] using congrArg (fun l : List (BitVec 26) => l[k]?) hn
  have he : ∀ k : Nat, k < 2 → engagedAt rs k = engagedAt rs' k := by
    intro k hk
    have h1 := hpk k
    have h2 := hnk k hk
    simp only [engagedAt]
    cases h3 : rs[k]? <;> cases h4 : rs'[k]? <;> simp [h3, h4] at h1 h2 ⊢
    rw [Rotor.engaged, Rotor.engaged, h1, h2]
  apply List.ext_getElem?
  intro k
  simp only [List.getElem?_map, stepStack_getElem?, he 0 (by omega), he 1 (by omega)]
  have h1 := hpk k
  split
  · cases h3 : rs[k]? <;> cases h4 : rs'[k]? <;> simp [h3, h4] at h1 ⊢
    rw [h1]
  · exact h1

end Sys2Proof.Machine
end

