-- ==== Sys2Proof/Laws/Keystroke.lean ====
section
/-! SUPPORT. What one keystroke and one message guarantee for a machine that meets R26 (45_enigma_engine.md R110, R113,
R120, R122, R123). -/

namespace Sys2Proof.Machine

/-! ### What R26 gives -/

theorem Enigma.wf_rotor {cfg : Config} {m : Enigma} (h : m.wf cfg = true) {r : Rotor} (hr : r ∈ m.stack) :
    (∀ x, memRead r.bwd (memRead r.fwd x) = x) ∧ ∀ x, memRead r.fwd (memRead r.bwd x) = x := by
  have hmem : r ∈ m.rotors := List.mem_of_mem_take hr
  simp only [Enigma.wf, Bool.and_eq_true, decide_eq_true_eq, List.all_eq_true] at h
  have := h.1.2 r hmem
  simp only [Rotor.wf, Rotor.tablesWf, Bool.and_eq_true, decide_eq_true_eq] at this
  exact this.1

theorem Enigma.wf_plug {cfg : Config} {m : Enigma} (h : m.wf cfg = true) (x : Symbol26) :
    m.plugPass (m.plugPass x) = x := by
  simp only [Enigma.wf, Memory.wf, Bool.and_eq_true, decide_eq_true_eq] at h
  exact h.2.1.2 x

theorem Enigma.wf_refl {cfg : Config} {m : Enigma} (h : m.wf cfg = true) {x y : Symbol26}
    (e : m.reflect x = m.reflect y) : x = y := by
  simp only [Enigma.wf, Memory.wf, Bool.and_eq_true, decide_eq_true_eq] at h
  exact h.2.1.1.2 x y e

/-- A READY machine has its `N` rotors, at least three (10_state.md R12, R26). -/
theorem Enigma.wf_length {cfg : Config} {m : Enigma} (h : m.wf cfg = true) :
    m.rotors.length = m.n.toNat ∧ 3 ≤ m.n.toNat := by
  simp only [Enigma.wf, Bool.and_eq_true, decide_eq_true_eq] at h
  exact ⟨h.1.1.2, h.1.1.1.1⟩

/-- With all `N` rotors present the stack is all of them. -/
theorem Enigma.wf_stack {cfg : Config} {m : Enigma} (h : m.wf cfg = true) : m.stack = m.rotors := by
  rw [Enigma.stack, List.take_of_length_le]
  exact le_of_eq (Enigma.wf_length h).1

theorem Enigma.wf_sstep {cfg : Config} {m : Enigma} (h : m.wf cfg = true) : m.sstep.wf cfg = true :=
  (Enigma.wf_of_sameConstants m.sstep_sameConstants).trans h

theorem Enigma.wf_setPositions {cfg : Config} {m : Enigma} (h : m.wf cfg = true) (ps : List Symbol26) :
    Enigma.wf cfg { m with rotors := setPositions ps m.rotors } = true :=
  (Enigma.wf_of_sameConstants (m := m) (m' := { m with rotors := setPositions ps m.rotors })
    ⟨rfl, rfl, rfl, rfl, setPositions_constants ps m.rotors⟩).trans h

/-! ### The two directions through the stack -/

/-- Rotors whose tables are inverse to each other. -/
def Inverses (rs : List Rotor) : Prop :=
  ∀ r ∈ rs, (∀ x, memRead r.bwd (memRead r.fwd x) = x) ∧ ∀ x, memRead r.fwd (memRead r.bwd x) = x

theorem backwardPass_forwardPass {rs : List Rotor} (h : Inverses rs) (x : Symbol26) :
    backwardPass rs (forwardPass rs x) = x := by
  induction rs generalizing x with
  | nil => rfl
  | cons r rs ih =>
    have := ih (fun q hq => h q (List.mem_cons_of_mem _ hq)) (r.travf x)
    simp only [backwardPass, forwardPass, List.foldl_cons, List.foldr_cons] at this ⊢
    rw [this]
    exact traverse_inverse _ _ (h r List.mem_cons_self).1 _ _

theorem forwardPass_backwardPass {rs : List Rotor} (h : Inverses rs) (x : Symbol26) :
    forwardPass rs (backwardPass rs x) = x := by
  induction rs generalizing x with
  | nil => rfl
  | cons r rs ih =>
    have := ih (fun q hq => h q (List.mem_cons_of_mem _ hq)) x
    simp only [backwardPass, forwardPass, List.foldl_cons, List.foldr_cons] at this ⊢
    rw [show r.travf (r.travb (rs.foldr (fun r x => r.travb x) x)) = rs.foldr (fun r x => r.travb x) x from
      traverse_inverse _ _ (h r List.mem_cons_self).2 _ _]
    exact this

theorem Enigma.wf_inverses {cfg : Config} {m : Enigma} (h : m.wf cfg = true) : Inverses m.stack :=
  fun _ hr => Enigma.wf_rotor h hr

/-! ### One keystroke -/

/-- The symbol of a keystroke, between the two plugboard passes and the two rotor passes. -/
theorem Enigma.keystroke_reflect {cfg : Config} {m : Enigma} (h : m.wf cfg = true) (x : Symbol26) :
    forwardPass m.sstep.stack (m.plugPass (m.keystroke x).2) =
      m.reflect (forwardPass m.sstep.stack (m.plugPass x)) := by
  rw [Enigma.keystroke_symbol, Enigma.signalPath,
    show m.sstep.plugPass = m.plugPass from rfl, show m.sstep.reflect = m.reflect from rfl, Enigma.wf_plug h,
    forwardPass_backwardPass (Enigma.wf_inverses (Enigma.wf_sstep h))]

theorem Enigma.forward_injective {cfg : Config} {m : Enigma} (h : m.wf cfg = true) {x y : Symbol26}
    (e : forwardPass m.sstep.stack (m.plugPass x) = forwardPass m.sstep.stack (m.plugPass y)) : x = y := by
  have hi := Enigma.wf_inverses (Enigma.wf_sstep h)
  have := congrArg (backwardPass m.sstep.stack) e
  rw [backwardPass_forwardPass hi, backwardPass_forwardPass hi] at this
  have := congrArg m.plugPass this
  rwa [Enigma.wf_plug h, Enigma.wf_plug h] at this

/-- At fixed positions a keystroke loses nothing (45_enigma_engine.md R120). -/
theorem Enigma.keystroke_injective {cfg : Config} {m : Enigma} (h : m.wf cfg = true) {x y : Symbol26}
    (e : (m.keystroke x).2 = (m.keystroke y).2) : x = y := by
  refine Enigma.forward_injective h (Enigma.wf_refl h ?_)
  rw [← Enigma.keystroke_reflect h, ← Enigma.keystroke_reflect h, e]

/-- Every symbol is the answer to some symbol: with `keystroke_injective`, the bijection of R120. -/
theorem Enigma.keystroke_surjective {cfg : Config} {m : Enigma} (h : m.wf cfg = true) (y : Symbol26) :
    ∃ x, (m.keystroke x).2 = y :=
  Finite.surjective_of_injective (f := fun x => (m.keystroke x).2) (fun _ _ e => Enigma.keystroke_injective h e) y

/-- With an involutive reflector a keystroke undoes itself from the same positions (45_enigma_engine.md R122). -/
theorem Enigma.keystroke_keystroke {cfg : Config} {m : Enigma} (h : m.wf cfg = true) (hr : m.reciprocal)
    (x : Symbol26) : (m.keystroke (m.keystroke x).2).2 = x := by
  refine Enigma.forward_injective h ?_
  have h1 := Enigma.keystroke_reflect h (m.keystroke x).2
  rw [Enigma.keystroke_reflect h x] at h1
  rw [h1]
  exact hr _

/-- With a reflector without fixed point no symbol encodes to itself (45_enigma_engine.md R123). -/
theorem Enigma.keystroke_ne {cfg : Config} {m : Enigma} (h : m.wf cfg = true) (hf : m.fixedPointFree)
    (x : Symbol26) : (m.keystroke x).2 ≠ x := by
  intro e
  have := Enigma.keystroke_reflect h x
  rw [e] at this
  exact hf _ this.symm

theorem Enigma.sstep_reciprocal {m : Enigma} (h : m.reciprocal) : m.sstep.reciprocal := h

/-! ### One character -/

/-- A letter code and its symbol determine each other (30_encoding.md R46). -/
theorem letterSymbol?_some {c : Byte} {x : Symbol26} (h : letterSymbol? c = some x) :
    Config.isLetter c = true ∧ c.toNat = 0x41 + x.val := by
  simp only [letterSymbol?, symbolOfNat?] at h
  split at h
  · rename_i hl
    split at h
    · cases h
      simp only [Config.isLetter, Bool.and_eq_true, decide_eq_true_eq] at hl
      exact ⟨by simp [Config.isLetter, hl], by simp [Config.base]; omega⟩
    · cases h
  · cases h

theorem letterSymbol?_symbolLetter (x : Symbol26) : letterSymbol? (symbolLetter x) = some x := by
  revert x; decide

theorem letterSymbol?_isSome (c : Byte) : (letterSymbol? c).isSome = Config.isLetter c := by
  simp only [letterSymbol?]
  cases h : Config.isLetter c
  · rfl
  · simp only [Config.isLetter, Bool.and_eq_true, decide_eq_true_eq] at h
    have : c.toNat - Config.base < 26 := by simp [Config.base]; omega
    simp [symbolOfNat?, this]

theorem symbolLetter_of {c : Byte} {x : Symbol26} (h : letterSymbol? c = some x) : symbolLetter x = c := by
  apply BitVec.eq_of_toNat_eq
  have h1 := (letterSymbol?_some h).2
  have h2 := c.isLt
  rw [symbolLetter, BitVec.toNat_ofNat, Config.base]
  omega

/-- A character that is no letter has no symbol. -/
theorem letterSymbol?_none {c : Byte} (h : Config.isLetter c = false) : letterSymbol? c = none := by
  simp [letterSymbol?, h]

/-- ENCC of a letter (45_enigma_engine.md R112). -/
theorem Enigma.encodeChar_letter (cfg : Config) (m : Enigma) {c : Byte} {x : Symbol26} (h : letterSymbol? c = some x) :
    m.encodeChar cfg c = some (m.sstep, symbolLetter (m.keystroke x).2) := by
  simp [Enigma.encodeChar, classify, h]

/-- ENCC of a digit or a space (45_enigma_engine.md R112). -/
theorem Enigma.encodeChar_passes (cfg : Config) (m : Enigma) {c : Byte} (h : Config.isLetter c = false)
    (hp : Config.isDigit c = true ∨ c ∈ cfg.ws) : m.encodeChar cfg c = some (m, c) := by
  simp only [Enigma.encodeChar, classify, letterSymbol?_none h]
  cases hd : Config.isDigit c
  · simp only [hd, Bool.false_eq_true, false_or] at hp
    simp [hp]
  · simp

/-- ENCC of any other character (45_enigma_engine.md R112). -/
theorem Enigma.encodeChar_other (cfg : Config) (m : Enigma) {c : Byte} (h : isOther cfg c = true) :
    m.encodeChar cfg c = none := by
  simp only [isOther, Bool.and_eq_true, Bool.not_eq_true', List.contains_eq_mem, decide_eq_false_iff_not] at h
  simp [Enigma.encodeChar, classify, letterSymbol?_none h.1.1, h.1.2, h.2]

/-- The three cases of a character. -/
theorem char_cases (cfg : Config) (c : Byte) :
    (∃ x, letterSymbol? c = some x) ∨
    (Config.isLetter c = false ∧ (Config.isDigit c = true ∨ c ∈ cfg.ws)) ∨ isOther cfg c = true := by
  cases hl : Config.isLetter c
  · refine .inr ?_
    by_cases hw : c ∈ cfg.ws <;> cases hd : Config.isDigit c <;> simp [isOther, hl, hd, hw]
  · refine .inl (Option.isSome_iff_exists.1 ?_)
    rw [letterSymbol?_isSome, hl]

/-! ### A message -/

@[simp] theorem Enigma.encodeChars_nil (cfg : Config) (m : Enigma) : m.encodeChars cfg [] = ⟨m, [], true⟩ := rfl

theorem Enigma.encodeChars_cons (cfg : Config) (m : Enigma) (c : Byte) (cs : List Byte) :
    m.encodeChars cfg (c :: cs) =
      match m.encodeChar cfg c with
      | none => ⟨m, [], false⟩
      | some (m', d) =>
        ⟨(m'.encodeChars cfg cs).machine, d :: (m'.encodeChars cfg cs).out, (m'.encodeChars cfg cs).complete⟩ := rfl

theorem Enigma.encodeChars_some {cfg : Config} {m m' : Enigma} {c d : Byte} (h : m.encodeChar cfg c = some (m', d))
    (cs : List Byte) :
    m.encodeChars cfg (c :: cs) =
      ⟨(m'.encodeChars cfg cs).machine, d :: (m'.encodeChars cfg cs).out, (m'.encodeChars cfg cs).complete⟩ := by
  rw [Enigma.encodeChars_cons, h]

theorem Enigma.encodeChars_none {cfg : Config} {m : Enigma} {c : Byte} (h : m.encodeChar cfg c = none)
    (cs : List Byte) : m.encodeChars cfg (c :: cs) = ⟨m, [], false⟩ := by
  rw [Enigma.encodeChars_cons, h]

/-- A message in two parts, the first of them complete (30_encoding.md R52). -/
theorem Enigma.encodeChars_append (cfg : Config) (m : Enigma) (a b : List Byte)
    (h : (m.encodeChars cfg a).complete = true) :
    m.encodeChars cfg (a ++ b) =
      ⟨((m.encodeChars cfg a).machine.encodeChars cfg b).machine,
        (m.encodeChars cfg a).out ++ ((m.encodeChars cfg a).machine.encodeChars cfg b).out,
        ((m.encodeChars cfg a).machine.encodeChars cfg b).complete⟩ := by
  induction a generalizing m with
  | nil => simp
  | cons c cs ih =>
    rw [List.cons_append]
    cases hc : m.encodeChar cfg c with
    | none => simp [Enigma.encodeChars_none hc] at h
    | some p =>
      obtain ⟨m', d⟩ := p
      simp only [Enigma.encodeChars_some hc] at h ⊢
      simp [ih m' h]

/-- A complete message has one output character for each of its own. -/
theorem Enigma.encodeChars_length (cfg : Config) (m : Enigma) (cs : List Byte)
    (h : (m.encodeChars cfg cs).complete = true) : (m.encodeChars cfg cs).out.length = cs.length := by
  induction cs generalizing m with
  | nil => rfl
  | cons c cs ih =>
    cases hc : m.encodeChar cfg c with
    | none => simp [Enigma.encodeChars_none hc] at h
    | some p =>
      obtain ⟨m', d⟩ := p
      simp only [Enigma.encodeChars_some hc] at h ⊢
      simp [ih m' h]

theorem isLetter_symbolLetter (x : Symbol26) : Config.isLetter (symbolLetter x) = true := by
  rw [← letterSymbol?_isSome, letterSymbol?_symbolLetter]; rfl

/-- The letters of a complete message, without the characters that pass through: the same letters, the same machine
(45_enigma_engine.md R118). -/
theorem Enigma.encodeChars_filter (cfg : Config) (m : Enigma) (cs : List Byte)
    (h : (m.encodeChars cfg cs).complete = true) :
    m.encodeChars cfg (cs.filter Config.isLetter) =
      ⟨(m.encodeChars cfg cs).machine, (m.encodeChars cfg cs).out.filter Config.isLetter, true⟩ := by
  induction cs generalizing m with
  | nil => rfl
  | cons c cs ih =>
    rcases char_cases cfg c with ⟨x, hx⟩ | ⟨hl, hp⟩ | ho
    · have hc := Enigma.encodeChar_letter cfg m hx
      simp only [Enigma.encodeChars_some hc] at h ⊢
      rw [List.filter_cons_of_pos (letterSymbol?_some hx).1, Enigma.encodeChars_some hc, ih _ h,
        List.filter_cons_of_pos (isLetter_symbolLetter _)]
    · have hc := Enigma.encodeChar_passes cfg m hl hp
      simp only [Enigma.encodeChars_some hc] at h ⊢
      rw [List.filter_cons_of_neg (by simp [hl]), ih _ h, List.filter_cons_of_neg (by simp [hl])]
    · simp [Enigma.encodeChars_none (Enigma.encodeChar_other cfg m ho)] at h

/-- A complete message comes back from the same machine, and leaves it in the same state, when the reflector is an
involution (45_enigma_engine.md R122). -/
theorem Enigma.encodeChars_reciprocal (cfg : Config) (m : Enigma) (cs : List Byte) (hw : m.wf cfg = true)
    (hr : m.reciprocal) (h : (m.encodeChars cfg cs).complete = true) :
    m.encodeChars cfg (m.encodeChars cfg cs).out = ⟨(m.encodeChars cfg cs).machine, cs, true⟩ := by
  induction cs generalizing m with
  | nil => rfl
  | cons c cs ih =>
    rcases char_cases cfg c with ⟨x, hx⟩ | ⟨hl, hp⟩ | ho
    · have hc := Enigma.encodeChar_letter cfg m hx
      simp only [Enigma.encodeChars_some hc] at h ⊢
      have hd := Enigma.encodeChar_letter cfg m (letterSymbol?_symbolLetter (m.keystroke x).2)
      rw [Enigma.encodeChars_some hd, ih _ (Enigma.wf_sstep hw) (Enigma.sstep_reciprocal hr) h,
        Enigma.keystroke_keystroke hw hr, symbolLetter_of hx]
    · have hc := Enigma.encodeChar_passes cfg m hl hp
      simp only [Enigma.encodeChars_some hc] at h ⊢
      rw [ih _ hw hr h]
    · simp [Enigma.encodeChars_none (Enigma.encodeChar_other cfg m ho)] at h

/-! ### Writing the positions back -/

theorem setPositions_pos (ps : List Symbol26) (rs : List Rotor) (h : ps.length = rs.length) :
    (setPositions ps rs).map Rotor.pos = ps := by
  induction ps generalizing rs with
  | nil => cases rs <;> simp_all [setPositions]
  | cons p ps ih =>
    cases rs with
    | nil => simp at h
    | cons r rs => simp [setPositions, ih rs (by simpa using h)]

/-- Two stacks with the same constants and the same positions are one stack. -/
theorem rotors_ext {rs rs' : List Rotor} (hc : rs.map Rotor.constants = rs'.map Rotor.constants)
    (hp : rs.map Rotor.pos = rs'.map Rotor.pos) : rs = rs' := by
  induction rs generalizing rs' with
  | nil => cases rs' <;> simp_all
  | cons r rs ih =>
    cases rs' with
    | nil => simp at hp
    | cons r' rs' =>
      simp only [List.map_cons, List.cons.injEq] at hc hp
      rw [ih hc.2 hp.2]
      obtain ⟨h1, -⟩ := hc
      obtain ⟨h2, -⟩ := hp
      simp only [Rotor.constants, Prod.mk.injEq] at h1
      obtain ⟨e1, e2, e3, e4⟩ := h1
      cases r; cases r'
      simp_all

/-- Restoring the positions of a machine restores the machine (10_state.md R25). -/
theorem Enigma.restore {m m' : Enigma} (h : m.sameConstants m') :
    { m' with rotors := setPositions m.positions m'.rotors } = m := by
  obtain ⟨h1, h2, h3, h4, h5⟩ := h
  have hlen : m'.rotors.length = m.rotors.length := by simpa using congrArg List.length h5
  have : setPositions m.positions m'.rotors = m.rotors := by
    apply rotors_ext
    · rw [setPositions_constants, h5]
    · rw [setPositions_pos _ _ (by simp [Enigma.positions, hlen])]; rfl
  cases m; cases m'
  simp_all

end Sys2Proof.Machine
end

