-- ==== Sys2Proof/Laws/Legal.lean ====
section
/-! SUPPORT. When a build completes and with what: exactly on legal operands, with the tables the spec describes; and which
error it reports otherwise (40_rotor_wiring_table.md R67 to R71, 43_reflector_path.md R92, 44_plugboard_substitution.md
R99). -/

namespace Sys2Proof.Machine

/-! ### Wirings -/

/-- The images of the letters among the characters. -/
abbrev letters (cs : List Byte) : List Symbol26 := cs.filterMap letterSymbol?

/-- Why a scan raises: a character that is no letter, or a letter that repeats or was marked before. -/
theorem scanLetters_error {cs : List Byte} {ms : Marks} {e : Status} (h : scanLetters cs ms = .error e) :
    (e = .invalidWiring ∧ ∃ c ∈ cs, Config.isLetter c = false) ∨
    (e = .duplicateWiring ∧ ((letters cs).Nodup → ∃ y ∈ letters cs, marked ms y = true)) := by
  induction cs generalizing ms with
  | nil => simp [scanLetters] at h
  | cons c cs ih =>
    simp only [scanLetters] at h
    split at h
    · rename_i hc
      cases h
      refine .inl ⟨rfl, c, List.mem_cons_self, ?_⟩
      rw [← letterSymbol?_isSome, hc]; rfl
    · rename_i t ht
      have hcons : letters (c :: cs) = t :: letters cs := by simp [letters, ht]
      split at h
      · rename_i hm
        cases h
        exact .inr ⟨rfl, fun _ => ⟨t, by simp [hcons], hm⟩⟩
      · split at h
        · rename_i e' he
          cases h
          rcases ih he with ⟨h1, c', hc', h2⟩ | ⟨h1, h2⟩
          · exact .inl ⟨h1, c', List.mem_cons_of_mem _ hc', h2⟩
          · refine .inr ⟨h1, fun hn => ?_⟩
            rw [hcons, List.nodup_cons] at hn
            obtain ⟨y, hy, hmy⟩ := h2 hn.2
            refine ⟨y, by simp [hcons, hy], ?_⟩
            rw [marked_mark, Bool.or_eq_true, decide_eq_true_eq] at hmy
            rcases hmy with rfl | hmy
            · exact absurd hy hn.1
            · exact hmy
        · cases h

theorem wiring_nodup {w : Wiring} : w.toList.Nodup ↔ ∀ j k, wiringChar w j = wiringChar w k → j = k := by
  rw [List.nodup_iff_injective_get]
  constructor
  · intro h j k e
    have := @h ⟨j.val, by simp⟩ ⟨k.val, by simp⟩ (by simpa [wiringChar] using e)
    simpa [Fin.ext_iff] using this
  · intro h j k e
    have := h ⟨j.val, by simpa using j.isLt⟩ ⟨k.val, by simpa using k.isLt⟩ (by simpa [wiringChar] using e)
    simpa [Fin.ext_iff] using this

theorem mem_wiring {w : Wiring} {c : Byte} : c ∈ w.toList ↔ ∃ k, wiringChar w k = c := by
  rw [List.mem_iff_getElem]
  constructor
  · rintro ⟨i, hi, rfl⟩
    exact ⟨⟨i, by simpa using hi⟩, by simp [wiringChar]⟩
  · rintro ⟨k, rfl⟩
    exact ⟨k.val, by simp, by simp [wiringChar]⟩

theorem letterSymbol?_inj {c d : Byte} {x : Symbol26} (hc : letterSymbol? c = some x) (hd : letterSymbol? d = some x) :
    c = d := by
  rw [← symbolLetter_of hc, symbolLetter_of hd]

theorem letters_nodup {cs : List Byte}
    (h : cs.Pairwise fun c d => Config.isLetter c = true → c ≠ d) : (letters cs).Nodup := by
  rw [letters, List.Nodup, List.pairwise_filterMap]
  refine h.imp fun {c d} hcd x hx y hy e => ?_
  subst e
  exact hcd (letterSymbol?_some hx).1 (letterSymbol?_inj hx hy)

/-- The scan completes exactly on legal wirings, with the image of every character in index order. -/
theorem scanWiring_complete {w : Wiring} (h : LegalWiring w) : ∃ raw, scanWiring w = .ok raw := by
  obtain ⟨hl, hn⟩ := h
  cases hs : scanWiring w with
  | ok raw => exact ⟨raw, rfl⟩
  | error e =>
    exfalso
    rcases scanLetters_error hs with ⟨-, c, hc, hbad⟩ | ⟨-, hdup⟩
    · obtain ⟨k, rfl⟩ := mem_wiring.1 hc
      simp [hl k] at hbad
    · obtain ⟨y, -, hy⟩ := hdup (letters_nodup
        (List.Pairwise.imp (S := fun c d => Config.isLetter c = true → c ≠ d) (fun hne _ => hne) (wiring_nodup.2 hn)))
      simp at hy

theorem scanWiring_getElem? {w : Wiring} {raw : List Symbol26} (h : scanWiring w = .ok raw) (k : Symbol26) :
    letterSymbol? (wiringChar w k) = raw[k.val]? := by
  have h1 := congrArg (fun l : List (Option Symbol26) => l[k.val]?) (scanLetters_ok h).1
  have h2 : k.val < raw.length := by rw [scanWiring_length h]; exact k.isLt
  simpa [wiringChar, List.getElem?_eq_getElem h2] using h1

theorem scanWiring_legal {w : Wiring} {raw : List Symbol26} (h : scanWiring w = .ok raw) : LegalWiring w := by
  have hlen := scanWiring_length h
  have hn := (scanLetters_ok h).2.1
  have hk : ∀ k : Symbol26, k.val < raw.length := fun k => by rw [hlen]; exact k.isLt
  refine ⟨fun k => ?_, fun j k e => ?_⟩
  · rw [← letterSymbol?_isSome, scanWiring_getElem? h, List.getElem?_eq_getElem (hk k)]; rfl
  · have hj := scanWiring_getElem? h j
    rw [e, scanWiring_getElem? h k, List.getElem?_eq_getElem (hk j), List.getElem?_eq_getElem (hk k)] at hj
    exact (Fin.ext ((List.Nodup.getElem_inj_iff hn).1 (Option.some.inj hj))).symm

/-- The image of a character of a scanned wiring. -/
theorem scanWiring_image {w : Wiring} {raw : List Symbol26} (h : scanWiring w = .ok raw) {k y : Symbol26}
    (e : (wiringChar w k).toNat = 0x41 + y.val) : raw[k.val]? = some y := by
  have hk : k.val < raw.length := by rw [scanWiring_length h]; exact k.isLt
  have h1 := scanWiring_getElem? h k
  rw [List.getElem?_eq_getElem hk] at h1 ⊢
  have h2 := (letterSymbol?_some h1).2
  congr 1
  apply Fin.ext
  omega

/-- Which error the scan of an illegal wiring raises. -/
theorem scanWiring_error {w : Wiring} {e : Status} (h : scanWiring w = .error e) :
    (e = .invalidWiring ∧ ∃ k, Config.isLetter (wiringChar w k) = false) ∨
    (e = .duplicateWiring ∧
      ¬ NoRepeatedTarget w) := by
  rcases scanLetters_error h with ⟨h1, c, hc, h2⟩ | ⟨h1, h2⟩
  · obtain ⟨k, rfl⟩ := mem_wiring.1 hc
    exact .inl ⟨h1, k, h2⟩
  · refine .inr ⟨h1, fun hall => ?_⟩
    have : w.toList.Pairwise fun c d => Config.isLetter c = true → c ≠ d := by
      rw [List.pairwise_iff_getElem]
      intro i j hi hj hij hlet heq
      have := hall ⟨i, by simpa using hi⟩ ⟨j, by simpa using hj⟩ (by simpa [wiringChar] using hlet)
        (by simpa [wiringChar] using heq)
      simp at this
      omega
    obtain ⟨y, -, hy⟩ := h2 (letters_nodup this)
    simp at hy

/-! ### Rotors -/

theorem symbolOfByte?_some {b : Byte} (h : b.toNat ≤ 25) : symbolOfByte? b = some ⟨b.toNat, by omega⟩ := by
  simp [symbolOfByte?, symbolOfNat?]; omega

theorem symbolOfByte?_none {b : Byte} (h : 25 < b.toNat) : symbolOfByte? b = none := by
  simp [symbolOfByte?, symbolOfNat?]; omega

theorem slotOutOfRange_eq_false {v : Bool} {p : Byte} : slotOutOfRange v p = false ↔ (v = true → p.toNat ≤ 25) := by
  cases v <;> simp [slotOutOfRange]

/-- What RBUILD builds (40_rotor_wiring_table.md R68, R69). -/
theorem buildRotor_spec {r : RotorRecord} {rotor : Rotor} (h : buildRotor r = .ok rotor) :
    LegalRecord r ∧ RotorOf r rotor := by
  simp only [buildRotor] at h
  split at h
  · cases h
  · rename_i raw hraw
    split at h
    · cases h
    · rename_i ring hring
      split at h
      · cases h
      · rename_i pos hpos
        split at h
        · cases h
        · rename_i hs0
          split at h
          · cases h
          · rename_i hs1
            cases h
            have hr := symbolOfByte?_val hring
            have hp := symbolOfByte?_val hpos
            have hlen := scanWiring_length hraw
            have hn := (scanLetters_ok hraw).2.1
            rw [Bool.not_eq_true, slotOutOfRange_eq_false] at hs0 hs1
            refine ⟨⟨scanWiring_legal hraw, by omega, by omega, hs0, hs1⟩, hp, hr, fun p => ?_, fun k y hky => ?_⟩
            · have hslot : ∀ (v : Bool) (q : Byte), (slotMask v q).getLsbD p.val = true ↔ v = true ∧ q.toNat = p.val := by
                intro v q
                cases v
                · simp [slotMask]
                · have := p.isLt
                  simp only [slotMask, if_true, BitVec.getLsbD_shiftLeft, BitVec.getLsbD_one]
                  simp
                  omega
              rw [notchMask, BitVec.getLsbD_or, Bool.or_eq_true, hslot, hslot]
            · have himg := scanWiring_image hraw hky
              constructor
              · have h1 := fillTables_fst ring raw 0 (blankTable, blankTable) (by omega) (k + ring)
                simp only [Nat.zero_le, if_true, Nat.sub_zero, add_sub_cancel_right, himg] at h1
                rw [mod26_add, mod26_add]
                exact h1
              · have h1 := (fillTables_snd ring raw 0 (blankTable, blankTable) hn (by omega)).1 k.val y himg
                rw [Nat.zero_add] at h1
                rw [mod26_add y ring]
                exact h1

/-- RBUILD completes on a legal record (40_rotor_wiring_table.md R67, R69). -/
theorem buildRotor_complete {r : RotorRecord} (h : LegalRecord r) : ∃ rotor, buildRotor r = .ok rotor := by
  obtain ⟨hw, hring, hpos, hs0, hs1⟩ := h
  obtain ⟨raw, hraw⟩ := scanWiring_complete hw
  simp only [buildRotor, hraw, symbolOfByte?_some hring, symbolOfByte?_some hpos,
    slotOutOfRange_eq_false.2 hs0, slotOutOfRange_eq_false.2 hs1, Bool.false_eq_true, if_false]
  exact ⟨_, rfl⟩

/-- RBUILD raises a ConfigurationError or nothing (60_exceptions.md R127). -/
theorem buildRotor_error {r : RotorRecord} {e : Status} (h : buildRotor r = .error e) :
    isBuildConfigurationError e = true := by
  simp only [buildRotor] at h
  split at h
  · rename_i e' he
    cases h
    rcases scanWiring_error he with ⟨rfl, -⟩ | ⟨rfl, -⟩ <;> rfl
  · split at h
    · cases h; rfl
    · split at h
      · cases h; rfl
      · split at h
        · cases h; rfl
        · split at h <;> cases h
          rfl

/-! ### The reflector -/

/-- What FBUILD builds (43_reflector_path.md R92). -/
theorem buildReflector_spec {w : Wiring} {t : Table} (h : buildReflector w = .ok t) : LegalWiring w ∧ ReflectorOf w t := by
  simp only [buildReflector] at h
  split at h
  · cases h
  · rename_i raw hraw
    cases h
    refine ⟨scanWiring_legal hraw, fun k y hky => ?_⟩
    have hlen := scanWiring_length hraw
    rw [fillPlain_read _ _ _ (by omega)]
    simp [scanWiring_image hraw hky]

/-- FBUILD completes on a legal wiring. -/
theorem buildReflector_complete {w : Wiring} (h : LegalWiring w) : ∃ t, buildReflector w = .ok t := by
  obtain ⟨raw, hraw⟩ := scanWiring_complete h
  simp only [buildReflector, hraw]
  exact ⟨_, rfl⟩

theorem buildReflector_error {w : Wiring} {e : Status} (h : buildReflector w = .error e) :
    e = .invalidWiring ∨ e = .duplicateWiring := by
  simp only [buildReflector] at h
  split at h
  · rename_i e' he
    cases h
    rcases scanWiring_error he with ⟨rfl, -⟩ | ⟨rfl, -⟩ <;> simp
  · cases h

/-! ### The plugboard -/

/-- What the pairs do to a table whose marked symbols are used up (44_plugboard_substitution.md R99). -/
theorem placePairs_spec {ps : List Pair} {used : Marks} {t u : Table} (h : placePairs ps used t = .ok u) :
    (∀ p ∈ ps, p.1.toNat ≤ 25 ∧ p.2.toNat ≤ 25) ∧ (ps.flatMap pairBytes).Nodup ∧
      (∀ b ∈ ps.flatMap pairBytes, ∀ x : Symbol26, x.val = b.toNat → marked used x = false) ∧
      (∀ z : Symbol26, (∀ p ∈ ps, p.1.toNat ≠ z.val ∧ p.2.toNat ≠ z.val) → memRead u z = memRead t z) ∧
      ∀ p ∈ ps, ∀ x y : Symbol26, x.val = p.1.toNat → y.val = p.2.toNat → memRead u x = y ∧ memRead u y = x := by
  induction ps generalizing used t with
  | nil =>
    simp only [placePairs] at h
    cases h
    simp
  | cons p ps ih =>
    obtain ⟨a, b⟩ := p
    simp only [placePairs] at h
    split at h
    · cases h
    · rename_i hab
      split at h
      · cases h
      · rename_i x hx
        split at h
        · cases h
        · rename_i y hy
          split at h
          · cases h
          · rename_i hu
            simp only [Bool.or_eq_true, not_or, Bool.not_eq_true] at hu
            obtain ⟨h1, h2, h3, h4, h5⟩ := ih h
            have hxv := symbolOfByte?_val hx
            have hyv := symbolOfByte?_val hy
            have hxy : x ≠ y := by
              rintro rfl
              exact hab (BitVec.eq_of_toNat_eq (hxv.symm.trans hyv))
            have hmark : ∀ c ∈ ps.flatMap pairBytes, ∀ z : Symbol26, z.val = c.toNat →
                x ≠ z ∧ y ≠ z ∧ marked used z = false := by
              intro c hc z hz
              have := h3 c hc z hz
              simp only [marked_mark, Bool.or_eq_false_iff, decide_eq_false_iff_not] at this
              exact ⟨this.2.1, this.1, this.2.2⟩
            have hfresh : ∀ q ∈ ps, ∀ z : Symbol26, (z = x ∨ z = y) → q.1.toNat ≠ z.val ∧ q.2.toNat ≠ z.val := by
              intro q hq z hz
              have hq1 : q.1 ∈ ps.flatMap pairBytes := List.mem_flatMap.2 ⟨q, hq, by simp [pairBytes]⟩
              have hq2 : q.2 ∈ ps.flatMap pairBytes := List.mem_flatMap.2 ⟨q, hq, by simp [pairBytes]⟩
              refine ⟨fun e => ?_, fun e => ?_⟩
              · have := hmark _ hq1 z e.symm
                rcases hz with rfl | rfl
                · exact this.1 rfl
                · exact this.2.1 rfl
              · have := hmark _ hq2 z e.symm
                rcases hz with rfl | rfl
                · exact this.1 rfl
                · exact this.2.1 rfl
            refine ⟨?_, ?_, ?_, ?_, ?_⟩
            · intro q hq
              rcases List.mem_cons.1 hq with rfl | hq
              · exact ⟨by simp only; omega, by simp only; omega⟩
              · exact h1 q hq
            · simp only [List.flatMap_cons, pairBytes, List.cons_append, List.nil_append, List.nodup_cons,
                List.mem_cons, not_or]
              refine ⟨⟨hab, fun hm => ?_⟩, fun hm => ?_, h2⟩
              · exact (hmark a hm x hxv).1 rfl
              · exact (hmark b hm y hyv).2.1 rfl
            · intro c hc z hz
              simp only [List.flatMap_cons, pairBytes, List.cons_append, List.nil_append, List.mem_cons] at hc
              rcases hc with rfl | rfl | hc
              · have : z = x := Fin.ext (hz.trans hxv.symm)
                rw [this]; exact hu.1
              · have : z = y := Fin.ext (hz.trans hyv.symm)
                rw [this]; exact hu.2
              · exact (hmark c hc z hz).2.2
            · intro z hz
              have hz0 := hz (a, b) List.mem_cons_self
              have hzx : x ≠ z := fun e => hz0.1 (by rw [← e]; exact hxv.symm)
              have hzy : y ≠ z := fun e => hz0.2 (by rw [← e]; exact hyv.symm)
              rw [h4 z fun q hq => hz q (List.mem_cons_of_mem _ hq), memRead_memWrite_other _ hzy,
                memRead_memWrite_other _ hzx]
            · intro q hq x' y' hx' hy'
              rcases List.mem_cons.1 hq with rfl | hq
              · have ex : x' = x := Fin.ext (hx'.trans hxv.symm)
                have ey : y' = y := Fin.ext (hy'.trans hyv.symm)
                subst ex ey
                rw [h4 x' fun q hq => hfresh q hq x' (.inl rfl), h4 y' fun q hq => hfresh q hq y' (.inr rfl)]
                simp [memRead_memWrite, Ne.symm hxy]
              · exact h5 q hq x' y' hx' hy'

/-- What PBUILD builds (44_plugboard_substitution.md R99, R104). -/
theorem buildPlugboard_spec {cap : Byte} {ps : List Pair} {t : Table} (h : buildPlugboard cap ps = .ok t) :
    LegalPairs cap ps ∧ PlugboardOf ps t := by
  have hcap := (buildPlugboard_ok h).2.2.1
  simp only [buildPlugboard] at h
  split at h
  · cases h
  · obtain ⟨h1, h2, -, h4, h5⟩ := placePairs_spec h
    exact ⟨⟨hcap, h1, h2⟩, h5, fun z hz => by rw [h4 z hz, memRead_identityTable]⟩

/-- No symbol twice in the list: no pair of equal numbers and no number in two pairs. -/
theorem pairs_nodup {ps : List Pair} : (ps.flatMap pairBytes).Nodup ↔ NoSelfPair ps ∧ PairsApart ps := by
  rw [List.nodup_flatMap]
  refine and_congr ?_ ?_
  · simp [NoSelfPair, pairBytes]
  · refine iff_of_eq (congrArg (fun R => List.Pairwise R ps) ?_)
    funext p q
    simp [Function.onFun, List.Disjoint, pairBytes, and_assoc]

/-- Why the placing of pairs raises: a pair of equal numbers, a number that is no symbol, or a symbol that stands in two
pairs or was used before. -/
theorem placePairs_error {ps : List Pair} {used : Marks} {t : Table} {e : Status}
    (h : placePairs ps used t = .error e) :
    (e = .selfPair ∧ ¬ NoSelfPair ps) ∨ (e = .outOfRange ∧ ¬ PairsInRange ps) ∨
    (e = .reused ∧ (PairsApart ps →
      ∃ p ∈ ps, ∃ x : Symbol26, (x.val = p.1.toNat ∨ x.val = p.2.toNat) ∧ marked used x = true)) := by
  induction ps generalizing used t with
  | nil => simp [placePairs] at h
  | cons p ps ih =>
    obtain ⟨a, b⟩ := p
    simp only [placePairs] at h
    split at h
    · rename_i hab
      cases h
      exact .inl ⟨rfl, fun hs => hs (a, b) List.mem_cons_self hab⟩
    · split at h
      · rename_i hx
        cases h
        refine .inr (.inl ⟨rfl, fun hr => ?_⟩)
        simp [symbolOfByte?_some (hr (a, b) List.mem_cons_self).1] at hx
      · rename_i x hx
        split at h
        · rename_i hy
          cases h
          refine .inr (.inl ⟨rfl, fun hr => ?_⟩)
          simp [symbolOfByte?_some (hr (a, b) List.mem_cons_self).2] at hy
        · rename_i y hy
          have hxv := symbolOfByte?_val hx
          have hyv := symbolOfByte?_val hy
          split at h
          · rename_i hu
            cases h
            refine .inr (.inr ⟨rfl, fun _ => ?_⟩)
            rcases Bool.or_eq_true _ _ ▸ hu with hu | hu
            · exact ⟨(a, b), List.mem_cons_self, x, .inl hxv, hu⟩
            · exact ⟨(a, b), List.mem_cons_self, y, .inr hyv, hu⟩
          · rcases ih h with ⟨h1, h2⟩ | ⟨h1, h2⟩ | ⟨h1, h2⟩
            · exact .inl ⟨h1, fun hs => h2 fun p hp => hs p (List.mem_cons_of_mem _ hp)⟩
            · exact .inr (.inl ⟨h1, fun hr => h2 fun p hp => hr p (List.mem_cons_of_mem _ hp)⟩)
            · refine .inr (.inr ⟨h1, fun hap => ?_⟩)
              obtain ⟨hhead, htail⟩ := List.pairwise_cons.1 hap
              obtain ⟨q, hq, z, hz, hm⟩ := h2 htail
              obtain ⟨n1, n2, n3, n4⟩ := hhead q hq
              refine ⟨q, List.mem_cons_of_mem _ hq, z, hz, ?_⟩
              rw [marked_mark, marked_mark, Bool.or_eq_true, Bool.or_eq_true, decide_eq_true_eq, decide_eq_true_eq] at hm
              rcases hm with rfl | rfl | hm
              · rcases hz with hz | hz
                · exact absurd (BitVec.eq_of_toNat_eq (hyv.symm.trans hz)) n3
                · exact absurd (BitVec.eq_of_toNat_eq (hyv.symm.trans hz)) n4
              · rcases hz with hz | hz
                · exact absurd (BitVec.eq_of_toNat_eq (hxv.symm.trans hz)) n1
                · exact absurd (BitVec.eq_of_toNat_eq (hxv.symm.trans hz)) n2
              · exact hm

/-- Why PBUILD raises (44_plugboard_substitution.md R99). -/
theorem buildPlugboard_error_cases {cap : Byte} {ps : List Pair} {e : Status} (h : buildPlugboard cap ps = .error e) :
    (e = .tooManyPairs ∧ cap.toNat < ps.length) ∨ (e = .selfPair ∧ ¬ NoSelfPair ps) ∨
    (e = .outOfRange ∧ ¬ PairsInRange ps) ∨ (e = .reused ∧ ¬ PairsApart ps) := by
  simp only [buildPlugboard] at h
  split at h
  · cases h
    exact .inl ⟨rfl, ‹_›⟩
  · rcases placePairs_error h with h | h | ⟨h1, h2⟩
    · exact .inr (.inl h)
    · exact .inr (.inr (.inl h))
    · refine .inr (.inr (.inr ⟨h1, fun hap => ?_⟩))
      obtain ⟨-, -, x, -, hm⟩ := h2 hap
      simp at hm

/-- PBUILD completes on a legal pair list. -/
theorem buildPlugboard_complete {cap : Byte} {ps : List Pair} (h : LegalPairs cap ps) :
    ∃ t, buildPlugboard cap ps = .ok t := by
  obtain ⟨hcap, hr, hn⟩ := h
  obtain ⟨hself, hapart⟩ := pairs_nodup.1 hn
  cases hp : buildPlugboard cap ps with
  | ok t => exact ⟨t, rfl⟩
  | error e =>
    exfalso
    rcases buildPlugboard_error_cases hp with ⟨-, h⟩ | ⟨-, h⟩ | ⟨-, h⟩ | ⟨-, h⟩
    · omega
    · exact h hself
    · exact h hr
    · exact h hapart

theorem buildPlugboard_error {cap : Byte} {ps : List Pair} {e : Status} (h : buildPlugboard cap ps = .error e) :
    isPlugboardError e = true := by
  rcases buildPlugboard_error_cases h with ⟨rfl, -⟩ | ⟨rfl, -⟩ | ⟨rfl, -⟩ | ⟨rfl, -⟩ <;> rfl

/-! ### CONFIG -/

/-- The builds of the rotors fail with the error of one of the records. -/
theorem buildRotors_error {recs : List RotorRecord} {e : Status} (h : buildRotors recs = .error e) :
    ∃ (k : Nat) (r : RotorRecord), recs[k]? = some r ∧ buildRotor r = .error e := by
  induction recs with
  | nil => cases h
  | cons r recs ih =>
    simp only [buildRotors] at h
    split at h
    · cases h
      exact ⟨0, r, rfl, ‹_›⟩
    · split at h
      · cases h
        obtain ⟨k, q, hq, hb⟩ := ih ‹_›
        exact ⟨k + 1, q, hq, hb⟩
      · cases h

/-- The checks and builds of CONFIG fail with the error of one component (45_enigma_engine.md R108). -/
theorem buildMachine_error {cap : Byte} {recs : List RotorRecord} {w : Wiring} {pairs : List Pair} {e : Status}
    (h : buildMachine cap recs w pairs = .error e) :
    (recs.length < 3 ∧ e = .tooFewRotors) ∨
    (3 ≤ recs.length ∧
      ((∃ (k : Nat) (r : RotorRecord), recs[k]? = some r ∧ buildRotor r = .error e) ∨ buildReflector w = .error e ∨
        buildPlugboard cap pairs = .error e)) := by
  have h3 : Config.nMin = 3 := rfl
  simp only [buildMachine] at h
  split at h
  · cases h
    exact .inl ⟨by omega, rfl⟩
  · refine .inr ⟨by omega, ?_⟩
    split at h
    · cases h
      exact .inl (buildRotors_error ‹_›)
    · split at h
      · cases h
        exact .inr (.inl ‹_›)
      · split at h
        · cases h
          exact .inr (.inr ‹_›)
        · cases h

/-- The records of a list of built rotors, one by one. -/
theorem built_getElem? {recs : List RotorRecord} {rotors : List Rotor}
    (h : recs.map buildRotor = rotors.map Except.ok) {k : Nat} {r : RotorRecord} (hr : recs[k]? = some r) :
    ∃ rotor, rotors[k]? = some rotor ∧ buildRotor r = .ok rotor := by
  have h1 := congrArg (fun l : List (Except Status Rotor) => l[k]?) h
  simp only [List.getElem?_map, hr, Option.map_some] at h1
  cases h2 : rotors[k]? with
  | none => simp [h2] at h1
  | some rotor => exact ⟨rotor, rfl, by simpa [h2] using h1⟩

end Sys2Proof.Machine
end

