-- ==== Sys2Proof/Laws/PerInstr.lean ====
section
/-! SUPPORT. The families of statements made of every instruction, one lemma a constructor. -/

namespace Sys2Proof.Laws

/-- The literal the opcode map gives the instruction (30_encoding.md R55): byte 0 of a frame, or the 4-bit select. -/
def literal : Instr → Nat
  | .config _ _ _ _ => 0x01
  | .encs _ => 0x02
  | .encc _ => 0x03
  | .encm _ => 0x04
  | .getpos => 0x05
  | .setpos _ => 0x06
  | .getring => 0x07
  | .rbuild _ _ => 0x0
  | .travf _ _ => 0x1
  | .travb _ _ => 0x2
  | .notchq _ => 0x3
  | .rstep _ => 0x4
  | .sstep => 0x5
  | .fbuild _ => 0x6
  | .refl _ => 0x7
  | .pbuild _ _ => 0x8
  | .plug _ => 0x9

namespace Opcode

/-- The encoding of the instruction is of the format the opcode map gives it and carries its literal. -/
def Statement (i : Instr) : Prop :=
  (i.isHost = true ∧ ∃ f, encode i = .frame f ∧ (f.head?).map (fun b => b.toNat) = some (literal i)) ∨
  (i.isHost = false ∧ ∃ m, encode i = .micro m ∧ m.uop.toNat = literal i)

theorem config (cap : Byte) (rots : List RotorRecord) (rw : Wiring) (pairs : List Pair) :
    Statement (.config cap rots rw pairs) := .inl ⟨rfl, _, rfl, rfl⟩
theorem encs (ss : Byte) : Statement (.encs ss) := .inl ⟨rfl, _, rfl, rfl⟩
theorem encc (cc : Byte) : Statement (.encc cc) := .inl ⟨rfl, _, rfl, rfl⟩
theorem encm (cs : List Byte) : Statement (.encm cs) := .inl ⟨rfl, _, rfl, rfl⟩
theorem getpos : Statement .getpos := .inl ⟨rfl, _, rfl, rfl⟩
theorem setpos (ps : List Byte) : Statement (.setpos ps) := .inl ⟨rfl, _, rfl, rfl⟩
theorem getring : Statement .getring := .inl ⟨rfl, _, rfl, rfl⟩
theorem rbuild (i : Byte) (r : RotorRecord) : Statement (.rbuild i r) := .inr ⟨rfl, _, rfl, rfl⟩
theorem travf (i : Byte) (x : Symbol26) : Statement (.travf i x) := .inr ⟨rfl, _, rfl, rfl⟩
theorem travb (i : Byte) (x : Symbol26) : Statement (.travb i x) := .inr ⟨rfl, _, rfl, rfl⟩
theorem notchq (i : Byte) : Statement (.notchq i) := .inr ⟨rfl, _, rfl, rfl⟩
theorem rstep (i : Byte) : Statement (.rstep i) := .inr ⟨rfl, _, rfl, rfl⟩
theorem sstep : Statement .sstep := .inr ⟨rfl, _, rfl, rfl⟩
theorem fbuild (rw : Wiring) : Statement (.fbuild rw) := .inr ⟨rfl, _, rfl, rfl⟩
theorem refl (x : Symbol26) : Statement (.refl x) := .inr ⟨rfl, _, rfl, rfl⟩
theorem pbuild (cap : Byte) (pairs : List Pair) : Statement (.pbuild cap pairs) := .inr ⟨rfl, _, rfl, rfl⟩
theorem plug (x : Symbol26) : Statement (.plug x) := .inr ⟨rfl, _, rfl, rfl⟩

end Opcode

end Sys2Proof.Laws
end

