-- ==== Sys2Proof/Tests/Slice0.lean ====
section
/-! SUPPORT. The model's own tests: each is one named theorem over a small state. Expected results are the worked examples
and vectors of spec/ (the place is in each docstring); the witnesses at the end meet the hypotheses of the statements. -/

open Sys2Proof Sys2Proof.Machine

namespace Sys2Proof.Tests

set_option Elab.async false

/-! ### Helpers -/

/-- The wirings of 95_test_vectors.md V12 and 43_reflector_path.md R92, character by character. -/
def wI : Wiring :=
  ⟨#[0x45, 0x4B, 0x4D, 0x46, 0x4C, 0x47, 0x44, 0x51, 0x56, 0x5A, 0x4E, 0x54, 0x4F,
    0x57, 0x59, 0x48, 0x58, 0x55, 0x53, 0x50, 0x41, 0x49, 0x42, 0x52, 0x43, 0x4A], rfl⟩
def wII : Wiring :=
  ⟨#[0x41, 0x4A, 0x44, 0x4B, 0x53, 0x49, 0x52, 0x55, 0x58, 0x42, 0x4C, 0x48, 0x57,
    0x54, 0x4D, 0x43, 0x51, 0x47, 0x5A, 0x4E, 0x50, 0x59, 0x46, 0x56, 0x4F, 0x45], rfl⟩
def wIII : Wiring :=
  ⟨#[0x42, 0x44, 0x46, 0x48, 0x4A, 0x4C, 0x43, 0x50, 0x52, 0x54, 0x58, 0x56, 0x5A,
    0x4E, 0x59, 0x45, 0x49, 0x57, 0x47, 0x41, 0x4B, 0x4D, 0x55, 0x53, 0x51, 0x4F], rfl⟩
def wB : Wiring :=
  ⟨#[0x59, 0x52, 0x55, 0x48, 0x51, 0x53, 0x4C, 0x44, 0x50, 0x58, 0x4E, 0x47, 0x4F,
    0x4B, 0x4D, 0x49, 0x45, 0x42, 0x46, 0x5A, 0x43, 0x57, 0x56, 0x4A, 0x41, 0x54], rfl⟩

/-- A rotor with one notch. -/
def rotorOf (w : Wiring) (ring pos n0 : Byte) : RotorRecord := ⟨w, ring, pos, 1, n0, 0⟩

/-- The rotors of the base configuration of 95_test_vectors.md at given ring settings and positions. -/
def rots (ring p0 p1 p2 : Byte) : List RotorRecord :=
  [rotorOf wIII ring p0 21, rotorOf wII ring p1 4, rotorOf wI ring p2 16]

/-- The state an operation leaves. -/
def after (r : Result) : State :=
  match r with
  | .next t => t
  | .fault _ => State.reset
  | .refused _ => State.reset

/-- An operation that answers leaves that state. -/
theorem next_after {r : Result} (h : answers r = true) : r = .next (after r) := by
  cases r with
  | next t => rfl
  | fault f => cases h
  | refused f => cases h

/-- The machine of a state, or one that no test expects. -/
def machine (s : State) : Enigma :=
  match s.lc with
  | .ready m => m
  | .unconfigured => ⟨0, 0, [], blankTable, blankTable⟩

/-- The last response. -/
def answer (s : State) : Frame := s.rsp.getLastD []

/-- The positions as numbers. -/
def pos (s : State) : List Nat := (machine s).positions.map fun x => x.val

/-- A block configured as the base configuration, its response taken. -/
def configured (ring p0 p1 p2 : Byte) (pairs : List Pair) : State :=
  { after (execConfig 10 (rots ring p0 p1 p2) wB pairs State.reset) with rsp := [] }

/-- The rotors of the base configuration at given positions, with the tables of 95_test_vectors.md V12. -/
def rIII (p : Symbol26) : Rotor :=
  ⟨p, 0, 0x0200000,
    ⟨#[1, 3, 5, 7, 9, 11, 2, 15, 17, 19, 23, 21, 25, 13, 24, 4, 8, 22, 6, 0, 10, 12, 20, 18, 16, 14], rfl⟩,
    ⟨#[19, 0, 6, 1, 15, 2, 18, 3, 16, 4, 20, 5, 21, 13, 25, 7, 24, 8, 23, 9, 22, 11, 17, 10, 14, 12], rfl⟩⟩
def rII (p : Symbol26) : Rotor :=
  ⟨p, 0, 0x0000010,
    ⟨#[0, 9, 3, 10, 18, 8, 17, 20, 23, 1, 11, 7, 22, 19, 12, 2, 16, 6, 25, 13, 15, 24, 5, 21, 14, 4], rfl⟩,
    ⟨#[0, 9, 15, 2, 25, 22, 17, 11, 5, 1, 3, 10, 14, 19, 24, 20, 16, 6, 4, 13, 7, 23, 12, 8, 21, 18], rfl⟩⟩
def rI (p : Symbol26) : Rotor :=
  ⟨p, 0, 0x0010000,
    ⟨#[4, 10, 12, 5, 11, 6, 3, 16, 21, 25, 13, 19, 14, 22, 24, 7, 23, 20, 18, 15, 0, 8, 1, 17, 2, 9], rfl⟩,
    ⟨#[20, 22, 24, 6, 0, 3, 5, 15, 21, 25, 1, 4, 2, 10, 12, 19, 7, 23, 18, 11, 17, 8, 13, 16, 14, 9], rfl⟩⟩

/-- Reflector B (43_reflector_path.md R92), and the plugboard without pairs. -/
def tB : Table :=
  ⟨#[24, 17, 20, 7, 16, 18, 11, 3, 15, 23, 13, 6, 14, 10, 12, 8, 4, 1, 5, 25, 2, 22, 21, 9, 0, 19], rfl⟩
def tId : Table :=
  ⟨#[0, 1, 2, 3, 4, 5, 6, 7, 8, 9, 10, 11, 12, 13, 14, 15, 16, 17, 18, 19, 20, 21, 22, 23, 24, 25], rfl⟩

/-- The machine of the base configuration at given positions, with more rotors behind. -/
def enigma (p0 p1 p2 : Symbol26) (n : Byte) (more : List Rotor) : Enigma :=
  ⟨n, 10, [rIII p0, rII p1, rI p2] ++ more, tB, tId⟩

/-- A block with that machine. -/
def at3 (p0 p1 p2 : Symbol26) : State := { State.reset with lc := .ready (enigma p0 p1 p2 3 []) }

/-- The base configuration: rotors III, II, I, reflector B, all zero. -/
def M : Enigma := enigma 0 0 0 3 []
def base : State := at3 0 0 0

/-- The base configuration with a fourth rotor. -/
def base4 : State := { State.reset with lc := .ready (enigma 0 0 0 4 [rII 7]) }

/-- A record of rotor III. -/
def recIII : RotorRecord := rotorOf wIII 0 0 21

/-! ### WellFormed: one ill-formed term a check -/

theorem test_wf_too_many_rotors : (Instr.config 10 (List.replicate 256 recIII) wB []).wf = false := by decide +kernel
theorem test_wf_too_many_pairs : (Instr.config 10 [] wB (List.replicate 256 (0, 1))).wf = false := by decide +kernel
theorem test_wf_reserved_bits : (Instr.config 10 [{ recIII with nv := 4 }] wB []).wf = false := by decide +kernel
theorem test_wf_message_too_long : (Instr.encm (List.replicate 256 0x41)).wf = false := by decide +kernel
theorem test_wf_positions_too_many : (Instr.setpos (List.replicate 256 0)).wf = false := by decide +kernel
theorem test_wf_bus_pairs_too_many : (Instr.pbuild 10 (List.replicate 256 (0, 1))).wf = false := by decide +kernel

/-! ### Decode: the words of 30_encoding.md R51, R52, R54, written out -/

/-- A CONFIG frame of no rotors and one pair, byte by byte: opcode, N, CAP, 26 reflector characters, P, the pair. -/
theorem test_decode_config : decode ([0x01, 0x00, 0x0A,
    0x59, 0x52, 0x55, 0x48, 0x51, 0x53, 0x4C, 0x44, 0x50, 0x58, 0x4E, 0x47, 0x4F,
    0x4B, 0x4D, 0x49, 0x45, 0x42, 0x46, 0x5A, 0x43, 0x57, 0x56, 0x4A, 0x41, 0x54, 0x01, 0x00, 0x19]) =
    .ok (.config 10 [] wB [(0, 25)]) := by rfl

/-- A CONFIG frame of one rotor record (W, ring, pos, nv, n0, n1 in this order), and the same with a reserved bit set. -/
def oneRotorFrame (nv : Byte) : Frame :=
  [0x01, 0x01, 0x0A,
    0x42, 0x44, 0x46, 0x48, 0x4A, 0x4C, 0x43, 0x50, 0x52, 0x54, 0x58, 0x56, 0x5A,
    0x4E, 0x59, 0x45, 0x49, 0x57, 0x47, 0x41, 0x4B, 0x4D, 0x55, 0x53, 0x51, 0x4F, 0x02, 0x14, nv, 0x15, 0x07] ++
  [0x59, 0x52, 0x55, 0x48, 0x51, 0x53, 0x4C, 0x44, 0x50, 0x58, 0x4E, 0x47, 0x4F,
    0x4B, 0x4D, 0x49, 0x45, 0x42, 0x46, 0x5A, 0x43, 0x57, 0x56, 0x4A, 0x41, 0x54, 0x00]

theorem test_decode_config_record : decode (oneRotorFrame 0x03) = .ok (.config 10 [⟨wIII, 2, 20, 3, 21, 7⟩] wB []) := by
  rfl
theorem test_decode_config_reserved : decode (oneRotorFrame 0x07) = .error .reservedBits := by rfl
theorem test_decode_encs : decode [0x02, 0x19] = .ok (.encs 25) := by rfl
theorem test_decode_encc : decode [0x03, 0x41] = .ok (.encc 0x41) := by rfl
theorem test_decode_encm : decode [0x04, 0x02, 0x41, 0x31] = .ok (.encm [0x41, 0x31]) := by rfl
theorem test_decode_encm_length : decode [0x04, 0x02, 0x41] = .error (.wrongLength 0x04) := by rfl
theorem test_decode_getpos : decode [0x05] = .ok .getpos := by rfl
theorem test_decode_setpos : decode [0x06, 0x14, 0x03, 0x00] = .ok (.setpos [20, 3, 0]) := by rfl
theorem test_decode_getring : decode [0x07] = .ok .getring := by rfl
theorem test_decode_unknown : decode [0x08] = .error .unknownOpcode ∧ decode [] = .error .emptyFrame := ⟨rfl, rfl⟩
theorem test_decode_rbuild :
    decodeMicro { MicroOp.bare 0x0 with i := 2, w := wI, ring := 1, pos := 5, nv := 1, n0 := 16, n1 := 9 } =
      .ok (.rbuild 2 ⟨wI, 1, 5, 1, 16, 9⟩) := by rfl
theorem test_decode_travf : decodeMicro { MicroOp.bare 0x1 with i := 2, s := 25 } = .ok (.travf 2 25) := by rfl
theorem test_decode_travb : decodeMicro { MicroOp.bare 0x2 with i := 2, s := 25 } = .ok (.travb 2 25) := by rfl
theorem test_decode_notchq : decodeMicro { MicroOp.bare 0x3 with i := 1 } = .ok (.notchq 1) := by rfl
theorem test_decode_rstep : decodeMicro { MicroOp.bare 0x4 with i := 1 } = .ok (.rstep 1) := by rfl
theorem test_decode_sstep : decodeMicro (MicroOp.bare 0x5) = .ok .sstep := by rfl
theorem test_decode_fbuild : decodeMicro { MicroOp.bare 0x6 with rw := wB } = .ok (.fbuild wB) := by rfl
theorem test_decode_refl : decodeMicro { MicroOp.bare 0x7 with s := 5 } = .ok (.refl 5) := by rfl
theorem test_decode_pbuild :
    decodeMicro { MicroOp.bare 0x8 with cap := 10, pairs := [(0, 25)] } = .ok (.pbuild 10 [(0, 25)]) := by rfl
theorem test_decode_plug : decodeMicro { MicroOp.bare 0x9 with s := 5 } = .ok (.plug 5) := by rfl
theorem test_decode_symbol_range : decodeMicro { MicroOp.bare 0x9 with s := 26 } = .error .symbolRange := by rfl

/-- The table words of the host (log 12): a frame at 8 bits, a select at 4. -/
theorem test_table_words : decodeTableWord 8 0x05 = some .getpos ∧ decodeTableWord 4 0x05 = some .sstep ∧
    decodeTableWord 8 0x09 = some (.plug 0) := ⟨rfl, rfl, rfl⟩

/-! ### One step each -/

/-- 95_test_vectors.md P1 step 1 and V12: the base CONFIG answers 00 and builds the machine of the base configuration. -/
theorem test_config_base : after (execConfig 10 (rots 0 0 0 0) wB [] State.reset) =
    { base with rsp := [[0x00]] } := by decide +kernel
/-- R108: fewer than 3 rotors is 0x15, and the old machine is gone. -/
theorem test_config_too_few : answer (after (execConfig 10 [recIII, recIII] wB [] base)) = [0x15] ∧
    (after (execConfig 10 [recIII, recIII] wB [] base)).lc = .unconfigured := by decide +kernel
/-- R110, the worked example: A gives 00 01 and `POS = (1, 0, 0)`. -/
theorem test_encs : answer (after (execEncs 0 base)) = [0x00, 0x01] ∧ pos (after (execEncs 0 base)) = [1, 0, 0] := by
  decide +kernel
/-- R56 item 6: 26 is refused. -/
theorem test_encs_illegal : after (execEncs 26 base) = { base with rsp := [[0x41]] } := by decide +kernel
/-- R112, the worked examples: A gives 00 42; the digit 1 gives 00 31 and no step. -/
theorem test_encc : answer (after (execEncc 0x41 base)) = [0x00, 0x42] ∧
    after (execEncc 0x31 base) = { base with rsp := [[0x00, 0x31]] } := by decide +kernel
/-- R112: a lower-case letter is Unencodable and steps nothing. -/
theorem test_encc_lower : after (execEncc 0x61 base) = { base with rsp := [[0x30]] } := by decide +kernel
/-- V5: ring settings (1, 1, 1) give EWTYX and `POS = (5, 0, 0)`. -/
theorem test_encm_rings : answer (after (execEncm [0x41, 0x41, 0x41, 0x41, 0x41] (configured 1 0 0 0 []))) =
    [0x00, 0x05, 0x45, 0x57, 0x54, 0x59, 0x58] ∧
    pos (after (execEncm [0x41, 0x41, 0x41, 0x41, 0x41] (configured 1 0 0 0 []))) = [5, 0, 0] := by decide +kernel
/-- V9: AAaAA gives 30 02 42 44 and `POS = (2, 0, 0)`. -/
theorem test_encm_unencodable : answer (after (execEncm [0x41, 0x41, 0x61, 0x41, 0x41] base)) =
    [0x30, 0x02, 0x42, 0x44] ∧ pos (after (execEncm [0x41, 0x41, 0x61, 0x41, 0x41] base)) = [2, 0, 0] := by
  decide +kernel
/-- R114: the positions, rotor 0 first. -/
theorem test_getpos : answer (after (execGetpos (at3 20 3 1))) = [0x00, 0x14, 0x03, 0x01] := by
  decide +kernel
/-- R115: three positions are written. -/
theorem test_setpos : answer (after (execSetpos [20, 3, 1] base)) = [0x00] ∧
    pos (after (execSetpos [20, 3, 1] base)) = [20, 3, 1] := by decide +kernel
/-- R115: one position above 25 and nothing is written. -/
theorem test_setpos_range : after (execSetpos [1, 26, 0] base) = { base with rsp := [[0x12]] } := by decide +kernel
/-- R116 with V5's ring settings. -/
theorem test_getring : answer (after (execGetring (configured 1 0 0 0 []))) = [0x00, 0x01, 0x01, 0x01] := by
  decide +kernel
/-- V11: the tables of rotor III with ring setting 1. -/
theorem test_rbuild : (after (execRbuild 0 (rotorOf wIII 1 0 21) State.reset)).staging.rotors =
    [some ⟨0, 1, 1 <<< 21,
      ⟨#[15, 2, 4, 6, 8, 10, 12, 3, 16, 18, 20, 24, 22, 0, 14, 25, 5, 9, 23, 7, 1, 11, 13, 21, 19, 17], rfl⟩,
      ⟨#[13, 20, 1, 7, 2, 16, 3, 19, 4, 17, 5, 21, 6, 22, 14, 0, 8, 25, 9, 24, 10, 23, 12, 18, 11, 15], rfl⟩⟩] := by
  decide +kernel
/-- R67: a letter that occurs twice, at index 0 and 1, is DuplicateWiring. -/
theorem test_rbuild_duplicate : (after (execRbuild 0 (rotorOf (wII.set 1 0x41) 0 0 21) State.reset)).busResult = some (.error .duplicateWiring) := by decide +kernel
/-- R74, the worked example: rotor III, `p = 1`, `s = 0` gives 2. -/
theorem test_travf : (after (execTravf 0 0 (at3 1 0 0))).busResult = some (.symbol 2) := by decide +kernel
/-- R74, the worked corner: `p = 25`, `s = 0` gives 15. -/
theorem test_travf_wrap : (after (execTravf 0 0 (at3 25 0 0))).busResult = some (.symbol 15) := by
  decide +kernel
/-- R75, the worked example: rotor III, `p = 1`, `s = 2` gives 0. -/
theorem test_travb : (after (execTravb 0 2 (at3 1 0 0))).busResult = some (.symbol 0) := by decide +kernel
/-- R81: the notch of rotor 0 is at 21. -/
theorem test_notchq : (after (execNotchq 0 (at3 21 0 0))).busResult = some (.bit true) ∧
    (after (execNotchq 0 (at3 20 0 0))).busResult = some (.bit false) := by decide +kernel
/-- R82: 25 wraps to 0, and only that rotor moves. -/
theorem test_rstep : pos (after (execRstep 1 (at3 3 25 7))) = [3, 0, 7] := by decide +kernel
/-- R84, the worked example: (21, 4, 0) gives (22, 5, 1). -/
theorem test_sstep_both : pos (after (execSstep (at3 21 4 0))) = [22, 5, 1] := by decide +kernel
/-- R83, the worked example: (20, 3, 0) gives (21, 3, 0). -/
theorem test_sstep_none : pos (after (execSstep (at3 20 3 0))) = [21, 3, 0] := by decide +kernel
/-- R92, the worked example: reflector B. -/
theorem test_fbuild : (after (execFbuild wB State.reset)).staging.refl = some
    ⟨#[24, 17, 20, 7, 16, 18, 11, 3, 15, 23, 13, 6, 14, 10, 12, 8, 4, 1, 5, 25, 2, 22, 21, 9, 0, 19], rfl⟩ := by
  decide +kernel
/-- R93, the worked example: `REFL(5) = 18`. -/
theorem test_refl : (after (execRefl 5 base)).busResult = some (.symbol 18) := by decide +kernel
/-- R99, the worked example: the pair (0, 25). -/
theorem test_pbuild : (after (execPbuild 10 [(0, 25)] State.reset)).staging.plug = some
    ⟨#[25, 1, 2, 3, 4, 5, 6, 7, 8, 9, 10, 11, 12, 13, 14, 15, 16, 17, 18, 19, 20, 21, 22, 23, 24, 0], rfl⟩ := by
  decide +kernel
/-- R101: (30, 30) is SelfPair, the equality test first; R99: (0, 25), (25, 3) is Reused. -/
theorem test_pbuild_errors :
    (after (execPbuild 10 [(30, 30)] State.reset)).busResult = some (.error .selfPair) ∧
    (after (execPbuild 10 [(0, 25), (25, 3)] State.reset)).busResult = some (.error .reused) := by decide +kernel
/-- R102, the worked example: with the pair (0, 25), `PLUG(0) = 25` and `PLUG(7) = 7`. -/
theorem test_plug : (after (execPlug 0 (configured 0 0 0 0 [(0, 25)]))).busResult = some (.symbol 25) ∧
    (after (execPlug 7 (configured 0 0 0 0 [(0, 25)]))).busResult = some (.symbol 7) := by decide +kernel

/-! ### Witnesses: for every statement with hypotheses, a state and operands that meet them all together -/

/-- The base configuration with something presented. -/
def presented (i : Input) : State := { base with inputs := [i] }

/-- The frame of a CONFIG of the base configuration. -/
def baseFrame : Frame :=
  match encode (.config 10 (rots 0 0 0 0) wB []) with
  | .frame f => f
  | .micro _ => []

/-- Records and wirings that build are legal ones. -/
theorem legal_record {r : RotorRecord} {rotor : Rotor} (h : buildRotor r = .ok rotor) : LegalRecord r :=
  (buildRotor_spec h).1
theorem legal_wI : LegalWiring wI := scanWiring_legal rfl
theorem legal_wB : LegalWiring wB := scanWiring_legal rfl
theorem legal_rots : ∀ r ∈ rots 0 25 25 25, LegalRecord r := by
  intro r hr
  simp only [rots, List.mem_cons, List.not_mem_nil, or_false] at hr
  rcases hr with rfl | rfl | rfl <;> exact legal_record rfl

theorem base_ready : base.lc = .ready M := rfl
theorem base_inv : base.inv = true := by decide +kernel

theorem witness_ResetPulseDestroysTheMachine : (presented .rst).bus = [] ∧ (presented .rst).inputs = .rst :: [] := by
  decide +kernel
theorem witness_DecodeOfEncodeIsTheInstruction :
    (Instr.config 255 (List.replicate 255 recIII) wB [(0, 25)]).wf = true ∧ (Instr.encm (List.replicate 255 0)).wf = true := by
  decide +kernel
theorem witness_AcceptedFrameIsTheEncodingOfAHostCommand : decode [0x02, 0xFF] = .ok (.encs 255) := by rfl
/-- For each opcode a frame of the length R57 gives and its neighbours: CONFIG of no rotors and one pair is 32 bytes, ENCM of
255 characters 257. -/
theorem witness_FrameLengthByOpcode :
    (∀ n ∈ [31, 32, 33], let f : Frame := (0x01 :: List.replicate 28 0) ++ [1] ++ List.replicate (n - 30) 0
      f.head? = some 0x01 ∧ f.length = n ∧
        30 + 31 * (f.getD 1 0).toNat + 2 * (f.getD (29 + 31 * (f.getD 1 0).toNat) 0).toNat = 32) ∧
    (∀ n ∈ [0, 1, 2], (0x02 :: List.replicate n 0 : Frame).head? = some 0x02 ∧
      (0x03 :: List.replicate n 0 : Frame).head? = some 0x03) ∧
    (∀ n ∈ [254, 255, 256], let f : Frame := 0x04 :: 0xFF :: List.replicate n 0x41
      f.head? = some 0x04 ∧ 2 + (f.getD 1 0).toNat = 257) ∧
    (∀ n ∈ [0, 1], (0x05 :: List.replicate n 0 : Frame).head? = some 0x05 ∧
      (0x07 :: List.replicate n 0 : Frame).head? = some 0x07) ∧
    (∀ n ∈ [2, 4], let f : Frame := 0x06 :: List.replicate n 0
      (presented (.frame f)).bus = [] ∧ (presented (.frame f)).inputs = .frame f :: [] ∧
        (presented (.frame f)).lc = .ready M ∧ f.head? = some 0x06 ∧ f.length ≠ 1 + M.n.toNat) := by decide +kernel
theorem witness_StepRunsTheDecodedFrame : (presented (.frame [0x05])).bus = [] ∧
    (presented (.frame [0x05])).inputs = .frame [0x05] :: [] ∧ decode [0x05] = .ok .getpos :=
  ⟨by decide +kernel, by decide +kernel, rfl⟩
theorem witness_StepRunsTheDecodedMicroOperation :
    ({ base with bus := [MicroOp.bare 0x5] } : State).bus = MicroOp.bare 0x5 :: [] ∧
    decodeMicro (MicroOp.bare 0x5) = .ok .sstep := ⟨rfl, rfl⟩
theorem witness_IdleBlockHoldsItsState : base.bus = [] ∧ base.inputs = [] := by decide +kernel
theorem witness_RejectedFrameIsAnsweredAndChangesNothing :
    (presented (.frame [0x02])).bus = [] ∧ (presented (.frame [0x02])).inputs = .frame [0x02] :: [] ∧
    decode [0x02] = .error (.wrongLength 0x02) := ⟨by decide +kernel, by decide +kernel, rfl⟩
theorem witness_ReservedTransactionsAreStuck :
    (let m := MicroOp.bare 0xA
     ({ base with bus := [m] } : State).bus = m :: [] ∧ 0xA ≤ m.uop.toNat) ∧
    (let m := { MicroOp.bare 0x9 with s := 26 }
     ({ base with bus := [m] } : State).bus = m :: [] ∧ m.uop.toNat ∈ [0x1, 0x2, 0x7, 0x9] ∧ 26 ≤ m.s.toNat) ∧
    (let m := { MicroOp.bare 0x8 with pairs := List.replicate 256 (0, 1) }
     ({ base with bus := [m] } : State).bus = m :: [] ∧ m.uop.toNat = 0x8 ∧ 255 < m.pairs.length) := by
  decide +kernel
theorem witness_EveryCommandIsAnsweredByOneFrame :
    (presented (.frame [])).bus = [] ∧ (presented (.frame [])).inputs = .frame [] :: [] ∧
    (presented .rst).inputs = .rst :: [] := by decide +kernel
theorem witness_StepKeepsTheInvariant : (presented (.frame [0x02, 0])).inv = true ∧
    step (presented (.frame [0x02, 0])) = .next (after (step (presented (.frame [0x02, 0])))) :=
  ⟨by decide +kernel, next_after (by decide +kernel)⟩
theorem witness_OnlyPositionsChangeWithoutConfigOrReset : (presented (.frame [0x02, 0])).lc = .ready M ∧
    step (presented (.frame [0x02, 0])) = .next (after (step (presented (.frame [0x02, 0])))) :=
  ⟨by decide +kernel, next_after (by decide +kernel)⟩
/-- First clause: the first CONFIG. Second clause: a reset pulse, and a CONFIG of no rotors. -/
theorem witness_LifecycleChangesByConfigOrResetOnly :
    (let s := { State.reset with inputs := [.frame baseFrame] }
     s.lc = .unconfigured ∧ answers (step s) = true ∧ (after (step s)).lc = .ready M) ∧
    (∀ i ∈ [Input.rst, Input.frame ([0x01, 0x00, 0x0A] ++ wB.toList ++ [0x00])],
      (presented i).lc = .ready M ∧ answers (step (presented i)) = true ∧
        (after (step (presented i))).lc = .unconfigured) := by decide +kernel
theorem witness_UnconfiguredBlockRefusesAllButConfig : State.reset.lc = .unconfigured := by rfl
theorem witness_HostCommandFrame : (Instr.encs 0).isHost = true ∧ base.lc = .ready M ∧
    exec (.encs 0) base = .next (after (exec (.encs 0) base)) :=
  ⟨rfl, base_ready, next_after (by decide +kernel)⟩
theorem witness_MicroOperationFrame : Instr.sstep.isHost = false ∧ base.lc = .ready M ∧
    exec .sstep base = .next (after (exec .sstep base)) := ⟨rfl, base_ready, next_after (by decide +kernel)⟩
theorem witness_ConfigBuildsTheMachine : 3 ≤ (rots 0 25 25 25).length ∧
    (rots 0 25 25 25).length ≤ State.reset.cfg.nMax.toNat ∧ (∀ r ∈ rots 0 25 25 25, LegalRecord r) ∧ LegalWiring wB ∧
    LegalPairs 2 [(0, 25), (3, 4)] := ⟨by decide, by decide, legal_rots, legal_wB, by simp [LegalPairs, pairBytes]⟩
theorem witness_FailedConfigLeavesNoMachine : [recIII].length ≤ base.cfg.nMax.toNat ∧
    ¬ (3 ≤ [recIII].length ∧ (∀ r ∈ [recIII], LegalRecord r) ∧ LegalWiring wB ∧ LegalPairs 0 []) :=
  ⟨by decide, fun h => absurd h.1 (by decide)⟩
/-- The rotors of the base configuration, the last with ring setting 26. -/
def badLast : List RotorRecord := [rotorOf wIII 0 25 21, rotorOf wII 0 25 4, rotorOf wI 26 0 16]
/-- Two legal rotors, fewer than three. -/
def twoRots : List RotorRecord := (rots 0 25 25 25).take 2
/-- One defect for each clause: two rotors; ring setting 26 of the last rotor; a reflector with a character that is no
letter; a pair of equal symbols. -/
theorem witness_ConfigReportsItsOnlyDefect :
    (twoRots.length ≤ base.cfg.nMax.toNat ∧ twoRots.length < 3 ∧ ∀ r ∈ twoRots, LegalRecord r) ∧
    3 ≤ badLast.length ∧ badLast.length ≤ base.cfg.nMax.toNat ∧
    3 ≤ (rots 0 25 25 25).length ∧ (rots 0 25 25 25).length ≤ base.cfg.nMax.toNat ∧ LegalWiring wB ∧
    LegalPairs 13 [(0, 25)] ∧ (∀ r ∈ rots 0 25 25 25, LegalRecord r) ∧
    badLast[2]? = some (rotorOf wI 26 0 16) ∧ buildRotor (rotorOf wI 26 0 16) = .error .invalidRingSetting ∧
    (∀ (j : Nat) (q : RotorRecord), badLast[j]? = some q → j ≠ 2 → LegalRecord q) ∧
    buildReflector (wB.set 0 0x40) = .error .invalidWiring ∧
    buildPlugboard 13 [(7, 7)] = .error .selfPair := by
  refine ⟨⟨by decide, by decide, fun r hr => legal_rots r (List.mem_of_mem_take hr)⟩, by decide, by decide, by decide,
    by decide, legal_wB, by simp [LegalPairs, pairBytes], legal_rots, by rfl, by rfl, fun j q hq hj => ?_, by rfl, by rfl⟩
  rcases j with _ | _ | _ | j
  · cases hq; exact legal_record rfl
  · cases hq; exact legal_record rfl
  · exact absurd rfl hj
  · simp [badLast] at hq
theorem witness_ConfigAboveCapacityChangesNothing :
    ({ base with cfg := { base.cfg with nMax := 3 } } : State).cfg.nMax.toNat < (recIII :: rots 0 0 0 0).length := by
  decide +kernel
theorem witness_ConfigReadsOnlyItsOperands : (rots 0 0 0 0).length ≤ base.cfg.nMax.toNat ∧
    (rots 0 0 0 0).length ≤ State.reset.cfg.nMax.toNat := by decide +kernel
/-- First clause: the builds of the base configuration complete. Second clause: a pair of equal symbols. -/
theorem witness_ConfigIsItsMicroOperations : base.staging = Staging.empty ∧ 3 ≤ (rots 0 0 0 0).length ∧
    (rots 0 0 0 0).length ≤ base.cfg.nMax.toNat ∧
    (issueBuilds 10 (rots 0 0 0 0) wB [] base).isSome = true ∧
    issueBuilds 10 (rots 0 0 0 0) wB [(7, 7)] base = none := by decide +kernel
theorem witness_RbuildBuildsTheRotor : (254 : Byte).toNat < State.reset.cfg.nMax.toNat ∧
    LegalRecord ⟨wIII, 25, 25, 3, 25, 0⟩ := ⟨by decide, legal_record rfl⟩
theorem witness_FbuildBuildsTheReflector : LegalWiring wB := legal_wB
theorem witness_PbuildBuildsThePlugboard : LegalPairs 2 [(0, 25), (3, 4)] := by simp [LegalPairs, pairBytes]
theorem witness_FailedBuildLeavesNothing : (0 : Byte).toNat < State.reset.cfg.nMax.toNat ∧
    ¬ LegalRecord ⟨wIII, 26, 0, 0, 0, 0⟩ ∧ ¬ LegalWiring (Vector.replicate 26 0x41) ∧ ¬ LegalPairs 0 [(0, 1)] :=
  ⟨by decide, fun h => absurd h.2.1 (by decide), fun h => absurd (h.2 0 1 rfl) (by decide), by decide⟩
/-- First and second clause: [ and E at index 25 of rotor I, the scalars at their bounds. -/
theorem witness_RbuildReportsItsOnlyDefect :
    (0 : Byte).toNat < State.reset.cfg.nMax.toNat ∧
    ((∃ k, Config.isLetter (wiringChar (wI.set 25 0x5B) k) = false) ∧ NoRepeatedTarget (wI.set 25 0x5B)) ∧
    ((∀ k, Config.isLetter (wiringChar (wI.set 25 0x45) k) = true) ∧ ¬ NoRepeatedTarget (wI.set 25 0x45)) ∧
    (25 : Byte).toNat ≤ 25 ∧ LegalSlots ⟨wI.set 25 0x5B, 25, 25, 1, 25, 99⟩ ∧
    LegalSlots ⟨wI.set 25 0x45, 25, 25, 3, 25, 25⟩ :=
  ⟨by decide, ⟨⟨25, rfl⟩, by decide +kernel⟩,
    ⟨by decide +kernel, fun h => absurd (h 0 25 rfl rfl) (by decide)⟩, by decide, by decide, by decide⟩
/-- The other three clauses, each at the bound. -/
theorem witness_RbuildReportsItsOnlyDefect_scalars : LegalWiring wI ∧ 25 < (26 : Byte).toNat ∧ (25 : Byte).toNat ≤ 25 ∧
    LegalSlots ⟨wI, 26, 25, 1, 25, 99⟩ ∧ LegalSlots ⟨wI, 25, 26, 0, 99, 99⟩ ∧ ¬ LegalSlots ⟨wI, 25, 25, 2, 99, 26⟩ :=
  ⟨legal_wI, by decide, by decide, by decide, by decide, by decide⟩
/-- One operand for each clause: [ and E at index 25; one pair above the cap; (7, 7); (0, 26); (0, 25) and (25, 3). -/
theorem witness_FbuildAndPbuildReportTheirOnlyDefect :
    ((∃ k, Config.isLetter (wiringChar (wI.set 25 0x5B) k) = false) ∧ NoRepeatedTarget (wI.set 25 0x5B)) ∧
    ((∀ k, Config.isLetter (wiringChar (wI.set 25 0x45) k) = true) ∧ ¬ NoRepeatedTarget (wI.set 25 0x45)) ∧
    (let l : List Pair := [(0, 25)]
     (0 : Byte).toNat < l.length ∧ PairsInRange l ∧ NoSelfPair l ∧ PairsApart l) ∧
    (let l : List Pair := [(7, 7)]
     l.length ≤ (1 : Byte).toNat ∧ PairsInRange l ∧ ¬ NoSelfPair l ∧ PairsApart l) ∧
    (let l : List Pair := [(0, 26)]
     l.length ≤ (1 : Byte).toNat ∧ ¬ PairsInRange l ∧ NoSelfPair l ∧ PairsApart l) ∧
    (let l : List Pair := [(0, 25), (25, 3)]
     l.length ≤ (2 : Byte).toNat ∧ PairsInRange l ∧ NoSelfPair l ∧ ¬ PairsApart l) :=
  ⟨witness_RbuildReportsItsOnlyDefect.2.1, witness_RbuildReportsItsOnlyDefect.2.2.1,
    by simp [PairsInRange, NoSelfPair, PairsApart], by simp [PairsInRange, NoSelfPair, PairsApart],
    by simp [PairsInRange, NoSelfPair, PairsApart], by simp [PairsInRange, NoSelfPair, PairsApart]⟩
theorem witness_TraversalsReturnTheShiftedLookup : base.lc = .ready M ∧ (2 : Byte).toNat < M.n.toNat ∧
    (M.rotors[(2 : Byte).toNat]?).isSome = true := by decide +kernel
theorem witness_TraversalsAreInverse : base.inv = true ∧ base.lc = .ready M ∧ (2 : Byte).toNat < M.n.toNat := by
  decide +kernel
/-- Ring setting 1, position 0: entering at 1 is raw index 0, whose image is B; entering at 2 is the raw image B. -/
theorem witness_TraversalDependsOnPositionMinusRing :
    (∃ rotor, buildRotor (rotorOf wIII 1 0 21) = .ok rotor ∧ rotor.ring = 1) ∧
    (wiringChar wIII 0).toNat = 0x41 + 1 ∧ mod26 (1 + 0 - 1) = 0 ∧ mod26 (2 + 0 - 1) = 1 :=
  ⟨⟨_, rfl, by decide +kernel⟩, by decide +kernel, by decide +kernel, by decide +kernel⟩
theorem witness_MicroOperationsNeedTheirMachine : State.reset.lc = .unconfigured ∧ base.lc = .ready M ∧
    M.n.toNat ≤ (3 : Byte).toNat ∧ State.reset.cfg.nMax.toNat ≤ (255 : Byte).toNat := by decide +kernel
theorem witness_NotchqReturnsTheNotchBit : base.lc = .ready M ∧ (0 : Byte).toNat < M.n.toNat ∧
    (M.rotors[(0 : Byte).toNat]?).isSome = true := by decide +kernel
theorem witness_RstepAdvancesOneRotor : base.lc = .ready M ∧ (2 : Byte).toNat < M.n.toNat ∧
    (M.rotors[(2 : Byte).toNat]?).isSome = true := by decide +kernel
theorem witness_SstepOutcomeTable : ∃ r0 r1 r2 more, base.lc = .ready M ∧ M.rotors = r0 :: r1 :: r2 :: more :=
  ⟨_, _, _, _, base_ready, rfl⟩
/-- 42_rotor_stepper.md R86 with (21, 3, 0). -/
theorem witness_DoubleStepAnomaly : ∃ m r0 r1 r2 more, (at3 21 3 0).lc = .ready m ∧
    m.rotors = r0 :: r1 :: r2 :: more ∧ r0.notch.getLsbD r0.pos.val = true ∧ r1.notch.getLsbD r1.pos.val = false ∧
    r1.notch.getLsbD (mod26 (r1.pos.val + 1)).val = true :=
  ⟨enigma 21 3 0 3 [], _, _, _, _, rfl, rfl, by decide +kernel, by decide +kernel,
    by decide +kernel⟩
theorem witness_RotorZeroHasPeriod26 : ∃ r0 more, M.rotors = r0 :: more ∧
    ∀ q : Symbol26, r0.notch.getLsbD q.val = true ↔ q = 21 := ⟨_, _, rfl, by decide +kernel⟩
/-- A machine of four rotors, and each of the four ways a keystroke is made. -/
theorem witness_RotorsBeyondTheThirdNeverStep : base4.lc = .ready (machine base4) ∧
    (∀ i ∈ [Instr.encs 0, .encc 0x41, .encm [0x41], .sstep],
      answers (exec i base4) = true ∧ (after (exec i base4)).lc = .ready (machine (after (exec i base4)))) ∧
    (machine base4).rotors.length = 4 := by decide +kernel
/-- Two machines of other wirings and ring settings at the same positions. -/
theorem witness_SteppingDependsOnPositionsAndTwoNotchSets :
    (let s' := configured 7 0 0 0 [(0, 25)]
     base.lc = .ready M ∧ s'.lc = .ready (machine s') ∧ M.positions = (machine s').positions ∧
      (M.rotors.map Rotor.notch).take 2 = ((machine s').rotors.map Rotor.notch).take 2 ∧
      answers (exec .sstep base) = true ∧ answers (exec .sstep s') = true ∧
      (after (exec .sstep base)).lc = .ready (machine (after (exec .sstep base))) ∧
      (after (exec .sstep s')).lc = .ready (machine (after (exec .sstep s')))) := by decide +kernel
theorem witness_ReflectorAndPlugboardReturnOneEntry : base.lc = .ready M := base_ready
theorem witness_PlugboardPassAndSteppingCommute : base.lc = .ready M := base_ready
theorem witness_EncsIsOneKeystroke : base.lc = .ready M := base_ready
theorem witness_EncsRefusesIllegalSymbols : base.lc = .ready M ∧ 25 < (26 : Byte).toNat := ⟨base_ready, by decide⟩
theorem witness_ResponseDependsOnTheMachineAlone : Instr.getpos.isHost = true ∧ base.lc = (presented .rst).lc ∧
    base.cfg = (presented .rst).cfg := ⟨rfl, rfl, rfl⟩
theorem witness_EncsIsItsMicroOperations : base.inv = true ∧ base.lc = .ready M := ⟨base_inv, base_ready⟩
theorem witness_KeystrokeIsABijection : base.inv = true ∧ base.lc = .ready M ∧ answers (exec (.encs 0) base) = true ∧
    (after (exec (.encs 0) base)).rsp = base.rsp ++ [[0x00, 1]] ∧ (25 : Byte).toNat ≤ 25 := by decide +kernel
theorem witness_KeystrokeIsSelfReciprocal : base.inv = true ∧ base.lc = .ready M ∧
    (∀ x, memRead M.refl (memRead M.refl x) = x) ∧ answers (exec (.encs 0) base) = true ∧
    (after (exec (.encs 0) base)).rsp = base.rsp ++ [[0x00, 1]] := by decide +kernel
/-- The message A1A, answered B1D (95_test_vectors.md V6). -/
theorem witness_MessagesAreSelfReciprocal : base.inv = true ∧ base.lc = .ready M ∧
    (∀ x, memRead M.refl (memRead M.refl x) = x) ∧ answers (exec (.encm [0x41, 0x31, 0x41]) base) = true ∧
    (after (exec (.encm [0x41, 0x31, 0x41]) base)).rsp = base.rsp ++ [0x00 :: 3 :: [0x42, 0x31, 0x44]] := by
  decide +kernel
theorem witness_NoSymbolEncodesToItself : base.inv = true ∧ base.lc = .ready M ∧ (∀ x, memRead M.refl x ≠ x) ∧
    answers (exec (.encs 0) base) = true ∧ (after (exec (.encs 0) base)).rsp = base.rsp ++ [[0x00, 1]] := by
  decide +kernel
theorem witness_KeystrokePositionsIgnoreTheSymbol : base.lc = .ready M ∧ answers (exec (.encs 0) base) = true ∧
    answers (exec (.encs 25) base) = true := by decide +kernel
/-- The bounds of each class: A, Z; 0, 9, the space; @ and [. -/
theorem witness_EnccByCharacterClass : base.lc = .ready M ∧
    (∀ c ∈ [(0x41 : Byte), 0x5A], 0x41 ≤ c.toNat ∧ c.toNat ≤ 0x5A) ∧
    (∀ c ∈ [(0x30 : Byte), 0x39, 0x20], ¬ (0x41 ≤ c.toNat ∧ c.toNat ≤ 0x5A) ∧
      ((0x30 ≤ c.toNat ∧ c.toNat ≤ 0x39) ∨ c ∈ base.cfg.ws)) ∧
    (∀ c ∈ [(0x40 : Byte), 0x5B], ¬ (0x41 ≤ c.toNat ∧ c.toNat ≤ 0x5A) ∧
      ¬ ((0x30 ≤ c.toNat ∧ c.toNat ≤ 0x39) ∨ c ∈ base.cfg.ws)) := by decide +kernel
theorem witness_EncmIsALoopOfEncc : base.lc = .ready M := base_ready
/-- AA then A: BD, then Z (95_test_vectors.md V1). -/
theorem witness_SplitMessagesConcatenate : base.lc = .ready M ∧
    (let t := after (exec (.encm [0x41, 0x41]) base)
     answers (exec (.encm [0x41, 0x41]) base) = true ∧ t.rsp = base.rsp ++ [0x00 :: 2 :: [0x42, 0x44]] ∧
      answers (exec (.encm [0x41]) t) = true ∧
      (after (exec (.encm [0x41]) t)).rsp = t.rsp ++ [0x00 :: 1 :: [0x5A]]) := by decide +kernel
theorem witness_PassThroughCharactersDoNotStep : base.lc = .ready M ∧
    answers (exec (.encm [0x41, 0x31, 0x41]) base) = true ∧
    (after (exec (.encm [0x41, 0x31, 0x41]) base)).rsp = base.rsp ++ [0x00 :: 3 :: [0x42, 0x31, 0x44]] := by
  decide +kernel
theorem witness_UnencodableKeepsTheWorkBefore : base.lc = .ready M ∧ isOther base.cfg 0x61 = true ∧
    answers (exec (.encm [0x41, 0x41]) base) = true ∧
    (after (exec (.encm [0x41, 0x41]) base)).rsp = base.rsp ++ [0x00 :: 2 :: [0x42, 0x44]] ∧
    ([0x41, 0x41] : List Byte).length ≤ 255 := by decide +kernel
theorem witness_GetposAndGetringReturnTheRegisters : base.inv = true ∧ base.lc = .ready M := ⟨base_inv, base_ready⟩
theorem witness_SetposWritesAllPositionsOrNone : base.inv = true ∧ base.lc = .ready M ∧
    (([0, 13, 25] : List Byte).length = M.n.toNat ∧ ∀ p ∈ ([0, 13, 25] : List Byte), p.toNat ≤ 25) ∧
    (([0, 13, 26] : List Byte).length = M.n.toNat ∧ ∃ p ∈ ([0, 13, 26] : List Byte), 25 < p.toNat) ∧
    ([0, 13] : List Byte).length ≠ M.n.toNat := by decide +kernel

end Sys2Proof.Tests
end

/-! SUPPORT. What a step takes and what it does to the lifecycle, said once (30_encoding.md R58, 10_state.md R11, R25), what
a host command writes besides (30_encoding.md R53), and the statements of 10_state.md that follow. -/

namespace Sys2Proof.Machine

/-! ### CONFIG: its answers -/

/-- The status byte 0x00 is OK and nothing else (60_exceptions.md R126). -/
theorem Status.code_ne_zero {e : Status} (h : e ≠ .ok) : e.code ≠ 0x00 := by
  cases e with
  | ok => exact absurd rfl h
  | _ => decide

/-- A CONFIG that fails does not report OK. -/
theorem buildMachine_error_ne_ok {cap : Byte} {recs : List RotorRecord} {w : Wiring} {pairs : List Pair} {e : Status}
    (h : buildMachine cap recs w pairs = .error e) : e ≠ .ok := by
  rintro rfl
  rcases buildMachine_error h with ⟨-, he⟩ | ⟨-, ⟨k, r, -, hr⟩ | hf | hp⟩
  · cases he
  · cases buildRotor_error hr
  · rcases buildReflector_error hf with he | he <;> cases he
  · cases buildPlugboard_error hp

/-- The three endings of CONFIG (45_enigma_engine.md R108, R109): refused for its count, failed with an error and no
machine left, or answered OK with a machine that meets R26. -/
theorem execConfig_cases {cap : Byte} {recs : List RotorRecord} {w : Wiring} {pairs : List Pair} {s t : State}
    (h : execConfig cap recs w pairs s = .next t) :
    t = s.raise .capacityExceeded ∨ (∃ e, e ≠ .ok ∧ t = s.destroy.raise e) ∨
      ∃ m, m.wf s.cfg = true ∧ t = (s.destroy.setMachine m).answer [] := by
  simp only [execConfig] at h
  split at h
  · cases h; exact .inl rfl
  · rename_i hmax
    split at h
    · rename_i e he
      cases h; exact .inr (.inl ⟨e, buildMachine_error_ne_ok he, rfl⟩)
    · rename_i m hm
      cases h; exact .inr (.inr ⟨m, buildMachine_wf (by omega) hm, rfl⟩)

/-! ### The decoders: where a CONFIG comes from -/

/-- Byte 0 of a frame that is a command is the literal of its instruction (30_encoding.md R55). -/
theorem decode_opcode {op : Byte} {b : Frame} {i : Instr} (h : decode (op :: b) = .ok i) :
    op.toNat = Laws.literal i := by
  simp only [decode] at h
  split at h
  case h_1 hop =>
    split at h
    · cases h
    · split at h <;> cases h
      exact hop
  case h_4 hop =>
    split at h
    · split at h <;> cases h
      exact hop
    · cases h
  case h_2 hop | h_3 hop | h_5 hop | h_6 hop | h_7 hop =>
    split at h <;> cases h
    exact hop
  case h_8 => cases h

/-- A frame decoded as CONFIG has byte 0x01 at its head (30_encoding.md R51). -/
theorem decode_config_head {f : Frame} {i : Instr} (h : decode f = .ok i) (hi : Instr.isConfig i = true) :
    f.head? = some 0x01 := by
  cases f with
  | nil => cases h
  | cons op b =>
    cases i with
    | config => exact congrArg some (BitVec.eq_of_toNat_eq (decode_opcode h))
    | _ => cases hi

theorem withSymbolPort_ok {m : MicroOp} {k : Symbol26 → Instr} {i : Instr} (h : withSymbolPort m k = .ok i) :
    ∃ x, i = k x := by
  simp only [withSymbolPort] at h
  split at h <;> cases h
  exact ⟨_, rfl⟩

/-- The micro-operation bus carries format U only (30_encoding.md R50). -/
theorem decodeMicro_isHost {m : MicroOp} {i : Instr} (h : decodeMicro m = .ok i) : i.isHost = false := by
  simp only [decodeMicro] at h
  split at h
  case h_2 | h_3 | h_8 | h_10 =>
    obtain ⟨x, rfl⟩ := withSymbolPort_ok h
    rfl
  case h_9 => split at h <;> cases h; rfl
  case h_1 | h_4 | h_5 | h_6 | h_7 => cases h; rfl
  case h_11 => cases h

/-- CONFIG is a host command. -/
theorem isConfig_eq_false_of_not_host {i : Instr} (h : i.isHost = false) : Instr.isConfig i = false := by
  cases i with
  | config => cases h
  | _ => rfl

/-! ### A step -/

/-- What a step that answers a next state has taken (30_encoding.md R58): a micro-operation of the bus; else nothing, a
reset pulse, a frame that is a command, or a frame that is none. -/
inductive Taken (s t : State) : Prop
  | micro (m : MicroOp) (rest : List MicroOp) (i : Instr) (hb : s.bus = m :: rest) (hd : decodeMicro m = .ok i)
      (h : exec i { s with bus := rest } = .next t)
  | nothing (hb : s.bus = []) (hi : s.inputs = []) (h : t = s)
  | reset (rest : List Input) (hb : s.bus = []) (hi : s.inputs = .rst :: rest)
      (h : t = { s with inputs := rest }.applyRst)
  | command (f : Frame) (rest : List Input) (i : Instr) (hb : s.bus = []) (hi : s.inputs = .frame f :: rest)
      (hd : decode f = .ok i) (h : exec i { s with inputs := rest } = .next t)
  | rejected (f : Frame) (rest : List Input) (r : Reject) (hb : s.bus = []) (hi : s.inputs = .frame f :: rest)
      (hd : decode f = .error r) (h : t = { s with inputs := rest }.raise (rejectStatus s.lc r))

theorem step_taken {s t : State} (h : step s = .next t) : Taken s t := by
  cases hb : s.bus with
  | cons m rest =>
    cases hd : decodeMicro m with
    | ok i => exact .micro m rest i hb hd (by simpa [step, fetch, hb, hd] using h)
    | error r => simp [step, fetch, hb, hd] at h
  | nil =>
    cases hi : s.inputs with
    | nil => exact .nothing hb hi (by simpa [step, fetch, hb, hi] using h.symm)
    | cons p rest =>
      cases p with
      | rst => exact .reset rest hb hi (by simpa [step, fetch, hb, hi] using h.symm)
      | frame f =>
        cases hd : decode f with
        | ok i => exact .command f rest i hb hi hd (by simpa [step, fetch, hb, hi, hd] using h)
        | error r => exact .rejected f rest r hb hi hd (by simpa [step, fetch, hb, hi, hd] using h.symm)

/-- No step writes the parameters (00_scope.md R5). -/
theorem step_cfg {s t : State} (h : step s = .next t) : t.cfg = s.cfg := by
  cases step_taken h with
  | micro _ _ _ _ _ h => exact (exec_frame h).cfg
  | nothing _ _ h => rw [h]
  | reset _ _ _ h => rw [h]; rfl
  | command _ _ _ _ _ _ h => exact (exec_frame h).cfg
  | rejected _ _ _ _ _ _ h => rw [h]; rfl

/-- What a step can do to the lifecycle and the machine (10_state.md R11, R25), with the input that did it and its
answer. -/
inductive StepLife (s t : State) : Prop
  /-- Nothing. -/
  | same (hl : t.lc = s.lc)
  /-- Positions change, and nothing else of the machine. -/
  | moved (m m' : Enigma) (hm : s.lc = .ready m) (hl : t.lc = .ready m') (hc : m.sameConstants m')
  /-- A reset pulse destroys the machine. -/
  | reset (rest : List Input) (hb : s.bus = []) (hi : s.inputs = .rst :: rest) (hl : t.lc = .unconfigured)
      (hr : t.rsp = s.rsp)
  /-- A CONFIG installs a machine that meets R26. -/
  | built (f : Frame) (rest : List Input) (m : Enigma) (hb : s.bus = []) (hi : s.inputs = .frame f :: rest)
      (hf : f.head? = some 0x01) (hl : t.lc = .ready m) (hw : m.wf s.cfg = true) (hr : t.rsp = s.rsp ++ [[0x00]])
  /-- A CONFIG fails and leaves none. -/
  | failed (f : Frame) (rest : List Input) (e : Byte) (hb : s.bus = []) (hi : s.inputs = .frame f :: rest)
      (hf : f.head? = some 0x01) (hl : t.lc = .unconfigured) (he : e ≠ 0x00) (hr : t.rsp = s.rsp ++ [[e]])

/-- An operation other than CONFIG, run by a step, moves positions at most. -/
theorem stepLife_of_exec {i : Instr} {s s' t : State} (hs : s'.lc = s.lc) (h : exec i s' = .next t)
    (hi : Instr.isConfig i = false) : StepLife s t := by
  have hlife := (exec_frame h).life
  rw [hs] at hlife
  generalize hl : s.lc = l, hl' : t.lc = l' at hlife
  cases hlife with
  | same => exact .same (hl'.trans hl.symm)
  | moved m m' hc => exact .moved m m' hl hl' hc
  | built _ _ hc => simp [hi] at hc
  | destroyed _ hc => simp [hi] at hc

/-- The step that takes a CONFIG frame. -/
theorem stepLife_of_config {i : Instr} {s t : State} {f : Frame} {rest : List Input} (hb : s.bus = [])
    (hin : s.inputs = .frame f :: rest) (hf : f.head? = some 0x01) (h : exec i { s with inputs := rest } = .next t)
    (hi : Instr.isConfig i = true) : StepLife s t := by
  cases i with
  | config cap recs w pairs =>
    rcases execConfig_cases h with rfl | ⟨e, he, rfl⟩ | ⟨m, hw, rfl⟩
    · exact .same rfl
    · exact .failed f rest e.code hb hin hf rfl (Status.code_ne_zero he) rfl
    · exact .built f rest m hb hin hf rfl hw rfl
  | _ => cases hi

/-- Said once of every step: what it can do to the lifecycle and the machine. -/
theorem step_life {s t : State} (h : step s = .next t) : StepLife s t := by
  cases step_taken h with
  | micro m rest i _ hd h =>
    exact stepLife_of_exec (s' := { s with bus := rest }) rfl h (isConfig_eq_false_of_not_host (decodeMicro_isHost hd))
  | nothing _ _ h => exact .same (by rw [h])
  | reset rest hb hi h => exact .reset rest hb hi (by rw [h]; rfl) (by rw [h]; rfl)
  | command f rest i hb hi hd h =>
    cases hc : Instr.isConfig i with
    | false => exact stepLife_of_exec (s' := { s with inputs := rest }) rfl h hc
    | true => exact stepLife_of_config hb hi (decode_config_head hd hc) h hc
  | rejected _ _ _ _ _ _ h => exact .same (by rw [h]; rfl)

/-! ### The invariant (10_state.md R26) -/

theorem State.inv_iff (s : State) : s.inv = true ↔ s.cfg.wf = true ∧ ∀ m, s.lc = .ready m → m.wf s.cfg = true := by
  cases hl : s.lc <;> simp [State.inv, hl]

/-- Settles O13: no machine exists after reset, and the parameters are those of `Config.default`. -/
theorem resetMeetsTheInvariant : Obligations.ResetMeetsTheInvariant :=
  (State.inv_iff _).2 ⟨by decide, fun _ h => by cases h⟩

/-- Settles O14, by what a step can do to the machine: R26 speaks of its constants, and CONFIG builds what meets it. -/
theorem stepKeepsTheInvariant : Obligations.StepKeepsTheInvariant := by
  intro s t hs h
  obtain ⟨hcfg, hwf⟩ := s.inv_iff.1 hs
  rw [State.inv_iff, step_cfg h]
  refine ⟨hcfg, fun m' hm' => ?_⟩
  cases step_life h with
  | same hl => exact hwf m' (hl ▸ hm')
  | moved m m'' hm hl hc =>
    obtain rfl : m'' = m' := by simpa [hl] using hm'
    rw [Enigma.wf_of_sameConstants hc]
    exact hwf m hm
  | built _ _ m _ _ _ hl hw =>
    obtain rfl : m = m' := by simpa [hl] using hm'
    exact hw
  | reset _ _ _ hl => simp [hl] at hm'
  | failed _ _ _ _ _ _ hl => simp [hl] at hm'

/-! ### The lifecycle and what is constant (10_state.md R11, R25) -/

/-- Settles O15, by what a step can do to the machine. -/
theorem onlyPositionsChangeWithoutConfigOrReset : Obligations.OnlyPositionsChangeWithoutConfigOrReset := by
  intro s t m hm h
  cases step_life h with
  | same hl => exact .inl ⟨m, hl.trans hm, m.sameConstants_refl⟩
  | moved m₀ m' hm₀ hl hc =>
    obtain rfl : m₀ = m := by simpa [hm₀] using hm
    exact .inl ⟨m', hl, hc⟩
  | reset rest hb hi => exact .inr (.inl ⟨hb, rest, hi⟩)
  | built f rest _ hb hi hf => exact .inr (.inr ⟨hb, f, rest, hi, hf⟩)
  | failed f rest _ hb hi hf => exact .inr (.inr ⟨hb, f, rest, hi, hf⟩)

/-- A step that makes a machine where there was none takes a CONFIG frame and answers OK. -/
theorem step_becomes_ready {s t : State} {m : Enigma} (hs : s.lc = .unconfigured) (h : step s = .next t)
    (ht : t.lc = .ready m) :
    ∃ f rest, s.inputs = .frame f :: rest ∧ f.head? = some 0x01 ∧ t.rsp = s.rsp ++ [[0x00]] := by
  cases step_life h with
  | built f rest _ _ hi hf _ _ hr => exact ⟨f, rest, hi, hf, hr⟩
  | same hl => simp [hl, hs] at ht
  | moved _ _ hm => simp [hs] at hm
  | reset _ _ _ hl => simp [hl] at ht
  | failed _ _ _ _ _ _ hl => simp [hl] at ht

/-- A step that leaves no machine where there was one takes a reset pulse, or a CONFIG frame that it answers with an
error. -/
theorem step_becomes_unconfigured {s t : State} {m : Enigma} (hs : s.lc = .ready m) (h : step s = .next t)
    (ht : t.lc = .unconfigured) :
    (∃ rest, s.inputs = .rst :: rest ∧ t.rsp = s.rsp) ∨
    ∃ f rest e, s.inputs = .frame f :: rest ∧ f.head? = some 0x01 ∧ e ≠ 0x00 ∧ t.rsp = s.rsp ++ [[e]] := by
  cases step_life h with
  | reset rest _ hi _ hr => exact .inl ⟨rest, hi, hr⟩
  | failed f rest e _ hi hf _ he hr => exact .inr ⟨f, rest, e, hi, hf, he, hr⟩
  | same hl => simp [hl, hs] at ht
  | moved _ _ _ hl => simp [hl] at ht
  | built _ _ _ _ _ _ hl => simp [hl] at ht

/-- Settles O16: each direction of `LC` is a lemma on the input a step takes. -/
theorem lifecycleChangesByConfigOrResetOnly : Obligations.LifecycleChangesByConfigOrResetOnly :=
  ⟨fun _ _ _ => step_becomes_ready, fun _ _ _ => step_becomes_unconfigured⟩

/-! ### The host commands (30_encoding.md R53) -/

/-- All that a host command writes: the lifecycle, one response frame of at least its status byte, and the staging copy if
it is CONFIG. -/
def HostAnswer (i : Instr) (s t : State) : Prop :=
  ∃ l g st body, t = ({ s with lc := l, staging := g } : State).respond (st :: body) ∧
    (Instr.isConfig i = false → g = s.staging)

theorem raise_hostAnswer (i : Instr) (s : State) (e : Status) : HostAnswer i s (s.raise e) :=
  ⟨s.lc, s.staging, e.code, [], rfl, fun _ => rfl⟩

theorem answer_hostAnswer (i : Instr) (s : State) (b : List Byte) : HostAnswer i s (s.answer b) :=
  ⟨s.lc, s.staging, _, b, rfl, fun _ => rfl⟩

/-- A machine moved to other positions, with a response. -/
theorem setMachine_respond_hostAnswer (i : Instr) (s : State) (m : Enigma) (st : Byte) (body : List Byte) :
    HostAnswer i s ((s.setMachine m).respond (st :: body)) :=
  ⟨.ready m, s.staging, st, body, rfl, fun _ => rfl⟩

theorem whenReady_hostAnswer {i : Instr} {s t : State} {k : Enigma → Result} (h : s.whenReady k = .next t)
    (hk : ∀ m, k m = .next t → HostAnswer i s t) : HostAnswer i s t := by
  simp only [State.whenReady] at h
  split at h
  · cases h; exact raise_hostAnswer i s _
  · exact hk _ h

/-- Said once of every host command: it answers with one frame and writes no more than `HostAnswer` says. -/
theorem exec_hostAnswer {i : Instr} {s t : State} (hi : i.isHost = true) (h : exec i s = .next t) : HostAnswer i s t := by
  cases i with
  | config cap recs w pairs =>
    rcases execConfig_cases h with rfl | ⟨e, -, rfl⟩ | ⟨m, -, rfl⟩
    · exact raise_hostAnswer _ s _
    · exact ⟨.unconfigured, Staging.empty, e.code, [], rfl, fun hc => by cases hc⟩
    · exact ⟨.ready m, Staging.empty, _, [], rfl, fun hc => by cases hc⟩
  | encs ss =>
    refine whenReady_hostAnswer h fun m h => ?_
    split at h <;> cases h
    · exact raise_hostAnswer _ s _
    · exact setMachine_respond_hostAnswer _ s _ _ _
  | encc cc =>
    refine whenReady_hostAnswer h fun m h => ?_
    split at h <;> cases h
    · exact raise_hostAnswer _ s _
    · exact setMachine_respond_hostAnswer _ s _ _ _
  | encm cs =>
    refine whenReady_hostAnswer h fun m h => ?_
    cases h; exact setMachine_respond_hostAnswer _ s _ _ _
  | getpos =>
    refine whenReady_hostAnswer h fun m h => ?_
    cases h; exact answer_hostAnswer _ s _
  | setpos ps =>
    refine whenReady_hostAnswer h fun m h => ?_
    split at h
    · split at h <;> cases h
      · exact raise_hostAnswer _ s _
      · exact setMachine_respond_hostAnswer _ s _ _ _
    · cases h; exact raise_hostAnswer _ s _
  | getring =>
    refine whenReady_hostAnswer h fun m h => ?_
    cases h; exact answer_hostAnswer _ s _
  | _ => cases hi

/-- An operation other than CONFIG makes no machine (10_state.md R11). -/
theorem LifeChange.unconfigured {cfg : Config} {i : Instr} {l : Life} (h : LifeChange cfg i .unconfigured l)
    (hi : Instr.isConfig i = false) : l = .unconfigured := by
  cases h with
  | same => rfl
  | destroyed => rfl
  | built _ _ hc => simp [hi] at hc

/-- An operation other than CONFIG leaves a machine that exists all but its positions (10_state.md R25). -/
theorem LifeChange.ready {cfg : Config} {i : Instr} {m : Enigma} {l : Life} (h : LifeChange cfg i (.ready m) l)
    (hi : Instr.isConfig i = false) : ∃ m', l = .ready m' ∧ m.sameConstants m' := by
  cases h with
  | same => exact ⟨m, rfl, m.sameConstants_refl⟩
  | moved _ m' hc => exact ⟨m', rfl, hc⟩
  | built _ _ hc => simp [hi] at hc
  | destroyed _ hc => simp [hi] at hc

theorem isConfig_eq_false {i : Instr} (h : ∀ cap rots rw pairs, i ≠ .config cap rots rw pairs) :
    Instr.isConfig i = false := by
  cases i with
  | config => exact absurd rfl (h _ _ _ _)
  | _ => rfl

/-- Settles O18, by what a host command writes and what an operation can do to the machine. -/
theorem hostCommandFrame : Obligations.HostCommandFrame := by
  intro i s t hi h
  have hlife := (exec_frame h).life
  obtain ⟨l, g, st, body, rfl, hg⟩ := exec_hostAnswer hi h
  refine ⟨rfl, rfl, rfl, rfl, ⟨st, body, rfl⟩, fun hne => ?_⟩
  have hc := isConfig_eq_false hne
  exact ⟨hg hc, fun hs => (hs ▸ hlife).unconfigured hc, fun m hs => (hs ▸ hlife).ready hc⟩

end Sys2Proof.Machine


/-! SUPPORT. Where a micro-operation has no behaviour, said once per guard (20_memory.md R42, 93_implementation_defined.md
U5), and the statement of 20_memory.md that follows. -/

namespace Sys2Proof.Machine

/-! ### The guards of the micro-operations -/

theorem withMachine_unconfigured {s : State} (hs : s.lc = .unconfigured) (k : Enigma → Result) :
    s.withMachine k = .fault .unbuilt := by
  simp [State.withMachine, hs]

theorem withMachine_ready {s : State} {m : Enigma} (hs : s.lc = .ready m) (k : Enigma → Result) :
    s.withMachine k = k m := by
  simp [State.withMachine, hs]

theorem withRotor_unconfigured {s : State} (hs : s.lc = .unconfigured) (j : Byte) (k : Enigma → Rotor → Result) :
    s.withRotor j k = .fault .unbuilt :=
  withMachine_unconfigured hs _

/-- The stack holds the rotors below `N` only, whatever the rotor memory holds (30_encoding.md R54). -/
theorem Enigma.stack_getElem?_eq_none {m : Enigma} {k : Nat} (h : m.n.toNat ≤ k) : m.stack[k]? = none :=
  List.getElem?_take_eq_none h

theorem withRotor_noRotor {s : State} {m : Enigma} {j : Byte} (hs : s.lc = .ready m) (hj : m.n.toNat ≤ j.toNat)
    (k : Enigma → Rotor → Result) : s.withRotor j k = .fault .noRotor := by
  rw [State.withRotor, withMachine_ready hs, Enigma.stack_getElem?_eq_none hj]

/-- RBUILD needs no machine, only a slot below `N_MAX` (30_encoding.md R64). -/
theorem execRbuild_noRotor {s : State} {j : Byte} (hj : s.cfg.nMax.toNat ≤ j.toNat) (r : RotorRecord) :
    execRbuild j r s = .fault .noRotor :=
  if_pos hj

/-! ### A micro-operation stops where what it names does not exist (20_memory.md R42) -/

/-- Settles O35: each of the operations is one of the guards above, and the guard alone decides. -/
theorem microOperationsNeedTheirMachine : Obligations.MicroOperationsNeedTheirMachine := by
  refine ⟨fun s hs => ?unbuilt, fun s m j hs hj => ?noRotor, fun s j r hj => execRbuild_noRotor hj r⟩
  case unbuilt =>
    exact ⟨fun j _ => ⟨withRotor_unconfigured hs j _, withRotor_unconfigured hs j _⟩,
      fun j => ⟨withRotor_unconfigured hs j _, withRotor_unconfigured hs j _⟩,
      withMachine_unconfigured hs _,
      fun _ => ⟨withMachine_unconfigured hs _, withMachine_unconfigured hs _⟩⟩
  case noRotor =>
    exact ⟨fun _ => ⟨withRotor_noRotor hs hj _, withRotor_noRotor hs hj _⟩,
      withRotor_noRotor hs hj _, withRotor_noRotor hs hj _⟩

end Sys2Proof.Machine


/-! SUPPORT. What the decoders accept, said once (30_encoding.md R51, R52, R54): each reader of a frame undoes the bytes it
reads, and a frame is a command exactly if it is the encoding of one. -/

namespace Sys2Proof

/-! ### The readers of a frame and the bytes they read (30_encoding.md R51) -/

theorem countByte_toNat {n : Nat} (h : n ≤ 255) : (countByte n).toNat = n := by
  rw [countByte, BitVec.toNat_ofNat]
  omega

theorem countByte_of_toNat {n : Nat} {b : Byte} (h : n = b.toNat) : countByte n = b := by
  subst h
  exact BitVec.ofNat_toNat 8 b

theorem byte_toNat_le (b : Byte) : b.toNat ≤ 255 := by omega

theorem countFits_iff {n : Nat} : countFits n = true ↔ n ≤ 255 := decide_eq_true_iff

theorem takeWiring_iff {b rest : Frame} {w : Wiring} : takeWiring b = some (w, rest) ↔ b = w.toList ++ rest := by
  constructor
  · intro h
    rw [takeWiring] at h
    split at h
    · cases h
      simp [Vector.toList]
    · cases h
  · rintro rfl
    have hl : w.toList.length = 26 := Vector.length_toList
    rw [takeWiring, dif_pos (by simp)]
    simp only [List.take_left' hl, List.drop_left' hl]
    rfl

theorem takeRecord_iff {b rest : Frame} {r : RotorRecord} : takeRecord b = some (r, rest) ↔ b = r.bytes ++ rest := by
  constructor
  · intro h
    rw [takeRecord] at h
    split at h
    · rename_i hw
      cases h
      simp [RotorRecord.bytes, takeWiring_iff.1 hw]
    · cases h
  · rintro rfl
    have hw : takeWiring (r.bytes ++ rest) = some (r.w, r.ring :: r.pos :: r.nv :: r.n0 :: r.n1 :: rest) :=
      takeWiring_iff.2 (by simp [RotorRecord.bytes])
    simp [takeRecord, hw]

theorem takeRecords_iff {n : Nat} {b rest : Frame} {rs : List RotorRecord} :
    takeRecords n b = some (rs, rest) ↔ rs.length = n ∧ b = rs.flatMap RotorRecord.bytes ++ rest := by
  induction n generalizing b rs with
  | zero =>
    cases rs with
    | nil => simp [takeRecords]
    | cons r rs => simp [takeRecords]
  | succ n ih =>
    constructor
    · intro h
      rw [takeRecords] at h
      split at h
      · cases h
      · rename_i r b' hr
        split at h
        · cases h
        · rename_i rs' b'' hrs
          cases h
          obtain ⟨hn, rfl⟩ := ih.1 hrs
          exact ⟨congrArg (· + 1) hn, by simp [takeRecord_iff.1 hr]⟩
    · rintro ⟨hn, rfl⟩
      cases rs with
      | nil => cases hn
      | cons r rs =>
        have hr : takeRecord ((r :: rs).flatMap RotorRecord.bytes ++ rest) =
            some (r, rs.flatMap RotorRecord.bytes ++ rest) := takeRecord_iff.2 (by simp)
        have hrs : takeRecords n (rs.flatMap RotorRecord.bytes ++ rest) = some (rs, rest) :=
          ih.2 ⟨Nat.succ.inj hn, rfl⟩
        simp only [takeRecords, hr, hrs]

theorem takePairs_iff {p : Nat} {b rest : Frame} {ps : List Pair} :
    takePairs p b = some (ps, rest) ↔ ps.length = p ∧ b = ps.flatMap pairBytes ++ rest := by
  induction p generalizing b ps with
  | zero =>
    cases ps with
    | nil => simp [takePairs]
    | cons q ps => simp [takePairs]
  | succ p ih =>
    constructor
    · intro h
      unfold takePairs at h
      split at h
      · cases ‹p + 1 = 0›
      · rename_i _ q x y b' hq
        cases hq
        split at h
        · cases h
        · rename_i ps' b'' hps
          cases h
          obtain ⟨hn, rfl⟩ := ih.1 hps
          exact ⟨congrArg (· + 1) hn, by simp [pairBytes]⟩
      · cases h
    · rintro ⟨hn, rfl⟩
      cases ps with
      | nil => cases hn
      | cons q ps =>
        have hps : takePairs p (ps.flatMap pairBytes ++ rest) = some (ps, rest) := ih.2 ⟨Nat.succ.inj hn, rfl⟩
        have hcons : (q :: ps).flatMap pairBytes ++ rest = q.1 :: q.2 :: (ps.flatMap pairBytes ++ rest) := rfl
        simp only [hcons, takePairs, hps]

/-- The bytes of a CONFIG frame after its opcode (30_encoding.md R51). -/
def configBytes (cap : Byte) (rots : List RotorRecord) (rw : Wiring) (pairs : List Pair) : Frame :=
  countByte rots.length :: cap ::
    (rots.flatMap RotorRecord.bytes ++ (rw.toList ++ countByte pairs.length :: pairs.flatMap pairBytes))

theorem encode_config (cap : Byte) (rots : List RotorRecord) (rw : Wiring) (pairs : List Pair) :
    encode (.config cap rots rw pairs) = .frame (0x01 :: configBytes cap rots rw pairs) := by
  simp [encode, configBytes]

theorem takeConfig_iff {b : Frame} {cap : Byte} {rots : List RotorRecord} {rw : Wiring} {pairs : List Pair} :
    takeConfig b = some (cap, rots, rw, pairs) ↔
      rots.length ≤ 255 ∧ pairs.length ≤ 255 ∧ b = configBytes cap rots rw pairs := by
  constructor
  · intro h
    unfold takeConfig at h
    split at h
    · rename_i n cap' b
      split at h
      · cases h
      · rename_i rots' b₁ hrots
        split at h
        · rename_i rw' p b₂ hrw
          split at h
          · rename_i pairs' hpairs
            cases h
            obtain ⟨hn, rfl⟩ := takeRecords_iff.1 hrots
            obtain rfl := takeWiring_iff.1 hrw
            obtain ⟨hp, rfl⟩ := takePairs_iff.1 hpairs
            exact ⟨hn ▸ byte_toNat_le n, hp ▸ byte_toNat_le p, by
              simp [configBytes, countByte_of_toNat hn, countByte_of_toNat hp]⟩
          · cases h
        · cases h
    · cases h
  · rintro ⟨hn, hp, rfl⟩
    have hrots (rest : Frame) := takeRecords_iff.2 ⟨(countByte_toNat hn).symm, (rfl : _ ++ rest = _)⟩
    have hrw (rest : Frame) := takeWiring_iff.2 (rfl : rw.toList ++ rest = _)
    have hpairs : takePairs (countByte pairs.length).toNat (pairs.flatMap pairBytes) = some (pairs, []) :=
      takePairs_iff.2 ⟨(countByte_toNat hp).symm, by simp⟩
    simp only [takeConfig, configBytes, hrots, hrw, hpairs]

/-! ### The commands a frame can be -/

/-- A command is decoded from its encoding. -/
theorem decode_encode {i : Instr} {f : Frame} (hw : i.wf = true) (he : encode i = .frame f) : decode f = .ok i := by
  cases i with
  | config cap rots rw pairs =>
    simp only [Instr.wf, Bool.and_eq_true, countFits_iff] at hw
    obtain ⟨⟨hn, hp⟩, hres⟩ := hw
    rw [encode_config] at he
    cases he
    simp [decode, takeConfig_iff.2 ⟨hn, hp, rfl⟩, hres]
  | encm cs =>
    cases he
    simp [decode, countByte_toNat (countFits_iff.1 hw)]
  | setpos ps =>
    cases he
    exact if_pos hw
  | encs | encc | getpos | getring => cases he; rfl
  | _ => cases he

/-- What the decoder reads is a well-formed command with that frame as its encoding (30_encoding.md R50). -/
theorem encode_of_decode {f : Frame} {i : Instr} (h : decode f = .ok i) :
    encode i = .frame f ∧ i.wf = true ∧ i.isHost = true := by
  cases f with
  | nil => cases h
  | cons op b =>
    simp only [decode] at h
    split at h
    case h_1 hop =>
      obtain rfl : op = 0x01 := BitVec.eq_of_toNat_eq hop
      split at h
      · cases h
      · rename_i cap rots rw pairs hc
        split at h <;> cases h
        rename_i hres
        obtain ⟨hn, hp, rfl⟩ := takeConfig_iff.1 hc
        exact ⟨encode_config .., by simp [Instr.wf, countFits_iff, hn, hp, hres], rfl⟩
    case h_2 hop | h_3 hop | h_5 hop | h_7 hop =>
      obtain rfl := countByte_of_toNat hop.symm
      split at h <;> cases h
      exact ⟨rfl, rfl, rfl⟩
    case h_4 hop =>
      obtain rfl : op = 0x04 := BitVec.eq_of_toNat_eq hop
      split at h
      · split at h <;> cases h
        rename_i ll cs hl
        exact ⟨by simp [encode, countByte_of_toNat hl], countFits_iff.2 (hl ▸ byte_toNat_le ll), rfl⟩
      · cases h
    case h_6 hop =>
      obtain rfl : op = 0x06 := BitVec.eq_of_toNat_eq hop
      split at h <;> cases h
      exact ⟨rfl, ‹_›, rfl⟩
    case h_8 => cases h

/-! ### The micro-operations a transaction can be (30_encoding.md R54) -/

@[simp] theorem symbolOfNat?_symbolBits (x : Symbol26) : symbolOfNat? (symbolBits x).toNat = some x := by
  have hx : (symbolBits x).toNat = x.val := by
    rw [symbolBits, BitVec.toNat_ofNat]
    omega
  rw [hx, symbolOfNat?, dif_pos x.isLt]

/-- A port that carries a symbol hands it on. -/
theorem withSymbolPort_symbolBits {m : MicroOp} {x : Symbol26} (h : m.s = symbolBits x) (k : Symbol26 → Instr) :
    withSymbolPort m k = .ok (k x) := by
  simp [withSymbolPort, h]

/-- A micro-operation is decoded from its transaction. -/
theorem decodeMicro_encode {i : Instr} {m : MicroOp} (hw : i.wf = true) (he : encode i = .micro m) :
    decodeMicro m = .ok i := by
  cases i with
  | travf | travb | refl | plug => cases he; exact withSymbolPort_symbolBits rfl _
  | pbuild cap pairs => cases he; exact if_pos hw
  | rbuild | notchq | rstep | sstep | fbuild => cases he; rfl
  | _ => cases he

/-- Settles O4, by the channel of the encoding: each of the two decoders undoes it. -/
theorem decodeOfEncodeIsTheInstruction : Obligations.DecodeOfEncodeIsTheInstruction := by
  intro i hw
  cases he : encode i with
  | frame f => exact congrArg Except.toOption (decode_encode hw he)
  | micro m => exact congrArg Except.toOption (decodeMicro_encode hw he)

/-- Settles O5: each reader of a frame reads back the bytes of what it answers. -/
theorem acceptedFrameIsTheEncodingOfAHostCommand : Obligations.AcceptedFrameIsTheEncodingOfAHostCommand :=
  fun _ _ => encode_of_decode

/-- Settles O3: each word is decoded by computation. -/
theorem wordsDecodeAsTheSpecWritesThem : Obligations.WordsDecodeAsTheSpecWritesThem :=
  ⟨rfl, rfl, rfl, rfl, rfl, rfl, rfl, rfl, rfl, rfl, rfl, rfl, rfl, rfl, rfl⟩

end Sys2Proof


/-! SUPPORT. How the decoders reject, said once (30_encoding.md R54, R56), and the length of a frame by its opcode (R57). -/

namespace Sys2Proof

/-! ### How a frame is rejected (30_encoding.md R56) -/

/-- What a frame looks like that is rejected for a given reason. -/
def RejectedFor (f : Frame) : Reject → Prop
  | .emptyFrame => f = []
  | .unknownOpcode => ∃ op b, f = op :: b ∧ isHostOpcode op.toNat = false
  | .wrongLength op => ∃ b, f = op :: b ∧ isHostOpcode op.toNat = true
  | .reservedBits => ∃ b, f = 0x01 :: b

theorem decode_rejectedFor {f : Frame} {r : Reject} (h : decode f = .error r) : RejectedFor f r := by
  cases f with
  | nil => cases h; rfl
  | cons op b =>
    simp only [decode] at h
    split at h
    case h_1 hop =>
      obtain rfl := countByte_of_toNat hop.symm
      split at h
      · cases h; exact ⟨b, rfl, rfl⟩
      · split at h <;> cases h
        exact ⟨b, rfl⟩
    case h_4 hop =>
      obtain rfl := countByte_of_toNat hop.symm
      split at h
      · split at h <;> cases h
        exact ⟨_, rfl, rfl⟩
      · cases h; exact ⟨_, rfl, rfl⟩
    case h_2 hop | h_3 hop | h_5 hop | h_6 hop | h_7 hop =>
      obtain rfl := countByte_of_toNat hop.symm
      split at h <;> cases h
      exact ⟨_, rfl, rfl⟩
    case h_8 h₁ h₂ h₃ h₄ h₅ h₆ h₇ =>
      cases h
      refine ⟨op, b, rfl, ?_⟩
      simp only [isHostOpcode, Bool.and_eq_false_iff, decide_eq_false_iff_not]
      simp only [imp_false] at h₁ h₂ h₃ h₄ h₅ h₆ h₇
      omega

/-! ### The length of a frame (30_encoding.md R57) -/

theorem exists_wiring {b : Frame} (h : 26 ≤ b.length) : ∃ w : Wiring, b = w.toList ++ b.drop 26 := by
  refine ⟨⟨(b.take 26).toArray, by simp [h]⟩, ?_⟩
  simp [Vector.toList]

theorem exists_record {b : Frame} (h : 31 ≤ b.length) : ∃ r : RotorRecord, b = r.bytes ++ b.drop 31 := by
  obtain ⟨w, hw⟩ := exists_wiring (b := b) (by omega)
  have hlen : 5 ≤ (b.drop 26).length := by rw [List.length_drop]; omega
  have hdrop : b.drop 31 = (b.drop 26).drop 5 := by rw [List.drop_drop]
  rw [hdrop]
  match b.drop 26, hlen, hw with
  | ring :: pos :: nv :: n0 :: n1 :: rest, _, hw =>
    exact ⟨⟨w, ring, pos, nv, n0, n1⟩, by simpa [RotorRecord.bytes] using hw⟩

theorem exists_records {n : Nat} {b : Frame} (h : 31 * n ≤ b.length) :
    ∃ rs : List RotorRecord, rs.length = n ∧ b = rs.flatMap RotorRecord.bytes ++ b.drop (31 * n) := by
  induction n generalizing b with
  | zero => exact ⟨[], rfl, rfl⟩
  | succ n ih =>
    obtain ⟨r, hr⟩ := exists_record (b := b) (by omega)
    obtain ⟨rs, hn, hrs⟩ := ih (b := b.drop 31) (by rw [List.length_drop]; omega)
    refine ⟨r :: rs, congrArg (· + 1) hn, ?_⟩
    rw [List.drop_drop] at hrs
    rw [List.flatMap_cons, List.append_assoc, show 31 * (n + 1) = 31 + 31 * n by omega, ← hrs, ← hr]

theorem exists_pairs {p : Nat} {b : Frame} (h : b.length = 2 * p) :
    ∃ ps : List Pair, ps.length = p ∧ b = ps.flatMap pairBytes := by
  induction p generalizing b with
  | zero => exact ⟨[], rfl, List.length_eq_zero_iff.1 h⟩
  | succ p ih =>
    match b, h with
    | x :: y :: b, h =>
      obtain ⟨ps, hp, rfl⟩ := ih (b := b) (by rw [List.length_cons, List.length_cons] at h; omega)
      exact ⟨(x, y) :: ps, congrArg (· + 1) hp, rfl⟩

theorem length_records (rs : List RotorRecord) : (rs.flatMap RotorRecord.bytes).length = 31 * rs.length := by
  simp [List.length_flatMap, RotorRecord.bytes, Nat.mul_comm]

theorem length_pairs (ps : List Pair) : (ps.flatMap pairBytes).length = 2 * ps.length := by
  simp [List.length_flatMap, pairBytes, Nat.mul_comm]

theorem length_configBytes (cap : Byte) (rots : List RotorRecord) (rw : Wiring) (pairs : List Pair) :
    (configBytes cap rots rw pairs).length = 29 + 31 * rots.length + 2 * pairs.length := by
  simp only [configBytes, List.length_cons, List.length_append, length_records, length_pairs, Vector.length_toList]
  omega

/-- The pair count of a CONFIG frame stands after the rotor records and the reflector wiring (30_encoding.md R51). -/
theorem getD_pairCount (n cap p : Byte) (rots : List RotorRecord) (rw : Wiring) (b : Frame) :
    (n :: cap :: (rots.flatMap RotorRecord.bytes ++ (rw.toList ++ p :: b))).getD (28 + 31 * rots.length) 0 = p := by
  have hi : 28 + 31 * rots.length = (rots.flatMap RotorRecord.bytes).length + rw.toList.length + 1 + 1 := by
    rw [length_records, Vector.length_toList]
    omega
  rw [hi, ← List.append_assoc, ← List.length_append, List.getD_cons_succ, List.getD_cons_succ,
    List.getD_eq_getElem?_getD, List.getElem?_append_right (Nat.le_refl _), Nat.sub_self]
  rfl

theorem takeConfig_some_iff {b : Frame} :
    (∃ x, takeConfig b = some x) ↔
      b.length = 29 + 31 * (b.getD 0 0).toNat + 2 * (b.getD (28 + 31 * (b.getD 0 0).toNat) 0).toNat := by
  constructor
  · rintro ⟨⟨cap, rots, rw, pairs⟩, h⟩
    obtain ⟨hn, hp, rfl⟩ := takeConfig_iff.1 h
    have h0 : ((configBytes cap rots rw pairs).getD 0 0).toNat = rots.length := countByte_toNat hn
    rw [h0, length_configBytes, configBytes, getD_pairCount, countByte_toNat hp]
  · intro h
    have htwo : 2 ≤ b.length := by omega
    match b, htwo, h with
    | n :: cap :: b, _, h =>
      simp only [List.length_cons, List.getD_cons_zero] at h
      obtain ⟨rots, hn, hrots⟩ := exists_records (n := n.toNat) (b := b) (by omega)
      obtain ⟨rw, hrw⟩ := exists_wiring (b := b.drop (31 * n.toNat)) (by rw [List.length_drop]; omega)
      rw [List.drop_drop] at hrw
      have hone : 1 ≤ (b.drop (31 * n.toNat + 26)).length := by rw [List.length_drop]; omega
      match b.drop (31 * n.toNat + 26), hone, hrw with
      | p :: d, _, hrw =>
        rw [hrw] at hrots
        rw [hrots, ← hn, getD_pairCount] at h
        obtain ⟨pairs, hp, rfl⟩ := exists_pairs (p := p.toNat) (b := d) (by
          simp only [List.length_append, List.length_cons, length_records, Vector.length_toList] at h
          omega)
        refine ⟨(cap, rots, rw, pairs), takeConfig_iff.2 ⟨hn ▸ byte_toNat_le n, hp ▸ byte_toNat_le p, ?_⟩⟩
        rw [hrots, configBytes, countByte_of_toNat hn, countByte_of_toNat hp]

theorem decode_config_wrongLength {b : Frame} :
    decode (0x01 :: b) = .error (.wrongLength 0x01) ↔ ¬ ∃ x, takeConfig b = some x := by
  cases hc : takeConfig b with
  | none => simp [decode, hc]
  | some x =>
    obtain ⟨cap, rots, rw, pairs⟩ := x
    cases hr : rots.all RotorRecord.reservedClear <;> simp [decode, hc, hr]

theorem decode_encs_wrongLength {b : Frame} :
    decode (0x02 :: b) = .error (.wrongLength 0x02) ↔ b.length ≠ 1 := by
  match b with
  | [] | [_] | _ :: _ :: _ => simp [decode]

theorem decode_encc_wrongLength {b : Frame} :
    decode (0x03 :: b) = .error (.wrongLength 0x03) ↔ b.length ≠ 1 := by
  match b with
  | [] | [_] | _ :: _ :: _ => simp [decode]

theorem decode_encm_wrongLength {b : Frame} :
    decode (0x04 :: b) = .error (.wrongLength 0x04) ↔ b.length ≠ 1 + (b.getD 0 0).toNat := by
  cases b with
  | nil => simp [decode]
  | cons ll cs =>
    by_cases h : cs.length = ll.toNat <;> simp [decode, h, Nat.add_comm]

theorem decode_getpos_wrongLength {b : Frame} : decode (0x05 :: b) = .error (.wrongLength 0x05) ↔ b.length ≠ 0 := by
  cases b <;> simp [decode]

theorem decode_getring_wrongLength {b : Frame} : decode (0x07 :: b) = .error (.wrongLength 0x07) ↔ b.length ≠ 0 := by
  cases b <;> simp [decode]

/-! ### How a transaction of the bus is rejected (30_encoding.md R54) -/

theorem decodeMicro_reservedSelect {m : MicroOp} (h : 0xA ≤ m.uop.toNat) :
    decodeMicro m = .error .reservedSelect := by
  simp only [decodeMicro]
  split
  case h_11 => rfl
  all_goals omega

theorem withSymbolPort_symbolRange {m : MicroOp} (h : 26 ≤ m.s.toNat) (k : Symbol26 → Instr) :
    withSymbolPort m k = .error .symbolRange := by
  rw [withSymbolPort, symbolOfNat?, dif_neg (by omega)]

theorem decodeMicro_symbolRange {m : MicroOp} (hu : m.uop.toNat ∈ [0x1, 0x2, 0x7, 0x9]) (h : 26 ≤ m.s.toNat) :
    decodeMicro m = .error .symbolRange := by
  simp only [List.mem_cons, List.not_mem_nil, or_false] at hu
  rcases hu with hu | hu | hu | hu <;> simp only [decodeMicro, hu] <;> exact withSymbolPort_symbolRange h _

theorem decodeMicro_pairCount {m : MicroOp} (hu : m.uop.toNat = 0x8) (h : 255 < m.pairs.length) :
    decodeMicro m = .error .pairCount := by
  have hfit : ¬ countFits m.pairs.length = true := by
    rw [countFits_iff]
    omega
  simp only [decodeMicro, hu]
  exact if_neg hfit

end Sys2Proof

namespace Sys2Proof.Machine

/-! ### A step by what it takes (30_encoding.md R58) -/

/-- Settles O8: the bus is served first. -/
theorem stepRunsTheDecodedMicroOperation : Obligations.StepRunsTheDecodedMicroOperation := by
  intro s m rest i hb hd
  simp [step, fetch, hb, hd]

theorem step_micro_rejected {s : State} {m : MicroOp} {rest : List MicroOp} {r : MicroReject} (hb : s.bus = m :: rest)
    (hd : decodeMicro m = .error r) : step s = .fault (microFault r) := by
  simp [step, fetch, hb, hd]

/-- Settles O7: with the bus idle the next frame is served. -/
theorem stepRunsTheDecodedFrame : Obligations.StepRunsTheDecodedFrame := by
  intro s f rest i hb hin hd
  simp [step, fetch, hb, hin, hd]

theorem step_rejected {s : State} {f : Frame} {rest : List Input} {r : Reject} (hb : s.bus = [])
    (hin : s.inputs = .frame f :: rest) (hd : decode f = .error r) :
    step s = .next ({ s with inputs := rest }.raise (rejectStatus s.lc r)) := by
  simp [step, fetch, hb, hin, hd]

theorem step_rst {s : State} {rest : List Input} (hb : s.bus = []) (hin : s.inputs = .rst :: rest) :
    step s = .next { s with inputs := rest }.applyRst := by
  simp [step, fetch, hb, hin]

theorem step_idle {s : State} (hb : s.bus = []) (hin : s.inputs = []) : step s = .next s := by
  simp [step, fetch, hb, hin]

/-- Settles O11: the bus decoder rejects, and a rejected transaction stops the step. -/
theorem reservedTransactionsAreStuck : Obligations.ReservedTransactionsAreStuck :=
  ⟨fun _ _ _ hb h => step_micro_rejected hb (decodeMicro_reservedSelect h),
    fun _ _ _ hb hu h => step_micro_rejected hb (decodeMicro_symbolRange hu h),
    fun _ _ _ hb hu h => step_micro_rejected hb (decodeMicro_pairCount hu h)⟩

/-- The status of a rejected frame in terms of its opcode (30_encoding.md R56): NotConfigured exactly for the opcodes 0x02 to
0x07 while UNCONFIGURED. -/
theorem rejectStatus_code {lc : Life} {f : Frame} {r : Reject} (h : RejectedFor f r) :
    (rejectStatus lc r).code =
      if lc = .unconfigured ∧ 2 ≤ (f.getD 0 0).toNat ∧ (f.getD 0 0).toNat ≤ 7 then 0x40 else 0x42 := by
  cases r with
  | emptyFrame =>
    obtain rfl := h
    exact (if_neg fun ⟨_, h2, _⟩ => Nat.not_succ_le_zero 1 h2).symm
  | unknownOpcode =>
    obtain ⟨op, b, rfl, hop⟩ := h
    refine (if_neg ?_).symm
    rintro ⟨-, h2, h7⟩
    rw [List.getD_cons_zero] at h2 h7
    simp only [isHostOpcode, Bool.and_eq_false_iff, decide_eq_false_iff_not] at hop
    omega
  | reservedBits =>
    obtain ⟨b, rfl⟩ := h
    exact (if_neg fun ⟨_, h2, _⟩ => Nat.not_succ_le_self 1 h2).symm
  | wrongLength op =>
    obtain ⟨b, rfl, hop⟩ := h
    cases lc with
    | ready m => exact (if_neg fun h => nomatch h.1).symm
    | unconfigured =>
      by_cases h1 : op = 0x01
      · subst h1; rfl
      · have hne : op.toNat ≠ 1 := fun h => h1 (countByte_of_toNat h.symm).symm
        simp only [isHostOpcode, Bool.and_eq_true, decide_eq_true_eq] at hop
        rw [List.getD_cons_zero, if_pos ⟨rfl, by omega, by omega⟩, rejectStatus, if_neg h1]
        rfl

/-- Settles O10, by what each reason to reject says of the frame. -/
theorem rejectedFrameIsAnsweredAndChangesNothing : Obligations.RejectedFrameIsAnsweredAndChangesNothing := by
  intro s f rest r hb hin hd
  rw [step_rejected hb hin hd, ← rejectStatus_code (decode_rejectedFor hd)]
  rfl

/-! ### The host commands: when they are refused (30_encoding.md R56) -/

theorem whenReady_unconfigured {s : State} (hs : s.lc = .unconfigured) (k : Enigma → Result) :
    s.whenReady k = .next (s.raise .notConfigured) := by
  simp [State.whenReady, hs]

theorem whenReady_ready {s : State} {m : Enigma} (hs : s.lc = .ready m) (k : Enigma → Result) :
    s.whenReady k = k m := by
  simp [State.whenReady, hs]

/-- Settles O17: the guard on `LC` alone decides. -/
theorem unconfiguredBlockRefusesAllButConfig : Obligations.UnconfiguredBlockRefusesAllButConfig :=
  fun _ hs => ⟨fun _ => whenReady_unconfigured hs _, fun _ => whenReady_unconfigured hs _,
    fun _ => whenReady_unconfigured hs _, whenReady_unconfigured hs _, fun _ => whenReady_unconfigured hs _,
    whenReady_unconfigured hs _⟩

/-- Settles O23: the capacity is tested before anything is built. -/
theorem configAboveCapacityChangesNothing : Obligations.ConfigAboveCapacityChangesNothing :=
  fun _ _ _ _ _ h => if_pos h

/-- Settles O46: the byte stands for no symbol. -/
theorem encsRefusesIllegalSymbols : Obligations.EncsRefusesIllegalSymbols := by
  intro s m ss hs h
  rw [exec, execEncs, whenReady_ready hs, symbolOfByte?_none h]
  rfl

theorem execSetpos_wrongLength {s : State} {m : Enigma} {ps : List Byte} (hs : s.lc = .ready m)
    (h : ps.length ≠ m.n.toNat) : execSetpos ps s = .next (s.raise .illegalCommand) := by
  rw [execSetpos, whenReady_ready hs, if_neg h]

/-- A SETPOS frame whose length is not `1 + N` is refused: by the decoder if no `N` gives that length, else by its meaning
(30_encoding.md R56 item 3, R57). -/
theorem step_setpos_wrongLength {s : State} {m : Enigma} {b : Frame} {rest : List Input} (hb : s.bus = [])
    (hin : s.inputs = .frame (0x06 :: b) :: rest) (hs : s.lc = .ready m) (h : b.length ≠ m.n.toNat) :
    step s = .next ({ s with inputs := rest }.raise .illegalCommand) := by
  by_cases hfit : countFits b.length = true
  · have hd : decode (0x06 :: b) = .ok (.setpos b) := if_pos hfit
    rw [stepRunsTheDecodedFrame s _ rest _ hb hin hd]
    exact execSetpos_wrongLength (s := { s with inputs := rest }) hs h
  · have hd : decode (0x06 :: b) = .error (.wrongLength 0x06) := if_neg hfit
    rw [step_rejected hb hin hd, hs]
    rfl

/-- Settles O6, by opcode: the decoder's verdict on the bytes after it, and for SETPOS the step. -/
theorem frameLengthByOpcode : Obligations.FrameLengthByOpcode := by
  refine ⟨fun f hf => ?config, fun f hf => ?encs, fun f hf => ?encc, fun f hf => ?encm, fun f hf => ?getpos,
    fun f hf => ?getring, fun s m f rest hb hin hs hf h => ?setpos⟩
  all_goals obtain ⟨b, rfl⟩ := List.head?_eq_some_iff.1 hf
  case config =>
    have hi : ∀ k, 29 + 31 * k = 28 + 31 * k + 1 := fun k => by omega
    rw [decode_config_wrongLength, takeConfig_some_iff, List.length_cons, List.getD_cons_succ, hi, List.getD_cons_succ]
    omega
  case encs => rw [decode_encs_wrongLength, List.length_cons]; omega
  case encc => rw [decode_encc_wrongLength, List.length_cons]; omega
  case encm => rw [decode_encm_wrongLength, List.length_cons, List.getD_cons_succ]; omega
  case getpos => rw [decode_getpos_wrongLength, List.length_cons]; omega
  case getring => rw [decode_getring_wrongLength, List.length_cons]; omega
  case setpos =>
    refine step_setpos_wrongLength hb hin hs fun hl => h ?_
    rw [List.length_cons, hl, Nat.add_comm]

/-! ### Every host command answers (30_encoding.md R53) -/

theorem whenReady_answers {s : State} {k : Enigma → Result} (hk : ∀ m, ∃ t, k m = .next t) :
    ∃ t, s.whenReady k = .next t := by
  cases hs : s.lc with
  | unconfigured => exact ⟨_, whenReady_unconfigured hs k⟩
  | ready m => exact whenReady_ready hs k ▸ hk m

/-- No host command makes the block stop. -/
theorem exec_host_answers {i : Instr} (hi : i.isHost = true) (s : State) : ∃ t, exec i s = .next t := by
  cases i with
  | config cap rots rw pairs =>
    simp only [exec, execConfig]
    split
    · exact ⟨_, rfl⟩
    · split <;> exact ⟨_, rfl⟩
  | encs ss => exact whenReady_answers fun m => by split <;> exact ⟨_, rfl⟩
  | encc cc => exact whenReady_answers fun m => by split <;> exact ⟨_, rfl⟩
  | setpos ps =>
    refine whenReady_answers fun m => ?_
    split
    · split <;> exact ⟨_, rfl⟩
    · exact ⟨_, rfl⟩
  | encm | getpos | getring => exact whenReady_answers fun m => ⟨_, rfl⟩
  | _ => cases hi

/-- A frame is taken and answered by one frame, whatever it holds. -/
theorem step_frame {s : State} {f : Frame} {rest : List Input} (hb : s.bus = []) (hin : s.inputs = .frame f :: rest) :
    ∃ t, step s = .next t ∧ t.bus = [] ∧ t.inputs = rest ∧ ∃ st body, t.rsp = s.rsp ++ [st :: body] := by
  cases hd : decode f with
  | error r => exact ⟨_, step_rejected hb hin hd, hb, rfl, _, [], rfl⟩
  | ok i =>
    obtain ⟨-, -, hi⟩ := encode_of_decode hd
    obtain ⟨t, ht⟩ := exec_host_answers hi { s with inputs := rest }
    obtain ⟨l, g, st, body, rfl, -⟩ := exec_hostAnswer hi ht
    exact ⟨_, (stepRunsTheDecodedFrame s f rest i hb hin hd).trans ht, hb, rfl, st, body, rfl⟩

/-- Settles O12, by the input next in line. -/
theorem everyCommandIsAnsweredByOneFrame : Obligations.EveryCommandIsAnsweredByOneFrame := by
  intro s hb
  cases hin : s.inputs with
  | nil => exact ⟨s, step_idle hb hin, hb, nofun, nofun⟩
  | cons p rest =>
    cases p with
    | rst => exact ⟨_, step_rst hb hin, rfl, nofun, fun _ h => by cases h; exact ⟨rfl, rfl⟩⟩
    | frame f =>
      obtain ⟨t, ht, htb, hti, hrsp⟩ := step_frame hb hin
      exact ⟨t, ht, htb, fun _ _ h => by cases h; exact ⟨hti, hrsp⟩, nofun⟩

/-! ### The micro-operations (30_encoding.md R54, 10_state.md R25) -/

/-- The builds, which write the staging copy. -/
def Instr.isBuild : Instr → Bool
  | .rbuild _ _ | .fbuild _ | .pbuild _ _ => true
  | _ => false

/-- The steppers, which write positions. -/
def Instr.isStepper : Instr → Bool
  | .rstep _ | .sstep => true
  | _ => false

/-- All that a micro-operation writes: its result port, the staging copy if it is a build, and the machine if it is a
stepper. -/
def UnitAnswer (i : Instr) (s t : State) : Prop :=
  ∃ l g r, t = { s with lc := l, staging := g, busResult := some r } ∧
    (Instr.isBuild i = false → g = s.staging) ∧ (Instr.isStepper i = false → l = s.lc)

theorem unitReturn_unitAnswer (i : Instr) (s : State) (r : UnitResult) : UnitAnswer i s (s.unitReturn r) :=
  ⟨s.lc, s.staging, r, rfl, fun _ => rfl, fun _ => rfl⟩

theorem finishBuild_unitAnswer {i : Instr} (hi : Instr.isBuild i = true) (s : State) (r : Except Status Staging) :
    UnitAnswer i s (s.finishBuild r) := by
  have hg : ∀ g : Staging, Instr.isBuild i = false → g = s.staging := fun _ h => by simp [hi] at h
  cases r with
  | ok g => exact ⟨s.lc, g, _, rfl, hg g, fun _ => rfl⟩
  | error e => exact ⟨s.lc, Staging.empty, _, rfl, hg _, fun _ => rfl⟩

theorem setMachine_unitAnswer {i : Instr} (hi : Instr.isStepper i = true) (s : State) (m : Enigma) (r : UnitResult) :
    UnitAnswer i s ((s.setMachine m).unitReturn r) :=
  ⟨.ready m, s.staging, r, rfl, fun _ => rfl, fun h => by simp [hi] at h⟩

theorem withMachine_next {s t : State} {k : Enigma → Result} (h : s.withMachine k = .next t) : ∃ m, k m = .next t := by
  cases hs : s.lc with
  | unconfigured => rw [withMachine_unconfigured hs] at h; cases h
  | ready m => exact ⟨m, withMachine_ready hs k ▸ h⟩

theorem withRotor_next {s t : State} {j : Byte} {k : Enigma → Rotor → Result} (h : s.withRotor j k = .next t) :
    ∃ m r, k m r = .next t := by
  obtain ⟨m, hm⟩ := withMachine_next h
  split at hm
  · cases hm
  · exact ⟨m, _, hm⟩

/-- Said once of every micro-operation: it writes no more than `UnitAnswer` says. -/
theorem exec_unitAnswer {i : Instr} {s t : State} (hi : i.isHost = false) (h : exec i s = .next t) :
    UnitAnswer i s t := by
  cases i with
  | rbuild j r =>
    simp only [exec, execRbuild] at h
    split at h <;> cases h
    exact finishBuild_unitAnswer rfl s _
  | fbuild | pbuild => cases h; exact finishBuild_unitAnswer rfl s _
  | travf | travb | notchq =>
    obtain ⟨m, r, hk⟩ := withRotor_next h
    cases hk; exact unitReturn_unitAnswer _ s _
  | rstep =>
    obtain ⟨m, r, hk⟩ := withRotor_next h
    cases hk; exact setMachine_unitAnswer rfl s _ _
  | sstep =>
    obtain ⟨m, hk⟩ := withMachine_next h
    cases hk; exact setMachine_unitAnswer rfl s _ _
  | refl | plug =>
    obtain ⟨m, hk⟩ := withMachine_next h
    cases hk; exact unitReturn_unitAnswer _ s _
  | _ => cases hi

theorem isBuild_eq_false {i : Instr} (hr : ∀ j r, i ≠ .rbuild j r) (hf : ∀ rw, i ≠ .fbuild rw)
    (hp : ∀ cap pairs, i ≠ .pbuild cap pairs) : Instr.isBuild i = false := by
  cases i with
  | rbuild => exact absurd rfl (hr _ _)
  | fbuild => exact absurd rfl (hf _)
  | pbuild => exact absurd rfl (hp _ _)
  | _ => rfl

theorem isStepper_eq_false {i : Instr} (hr : ∀ j, i ≠ .rstep j) (hs : i ≠ .sstep) : Instr.isStepper i = false := by
  cases i with
  | rstep => exact absurd rfl (hr _)
  | sstep => exact absurd rfl hs
  | _ => rfl

/-- Settles O19, by what a micro-operation writes and what an operation can do to the machine. -/
theorem microOperationFrame : Obligations.MicroOperationFrame := by
  intro i s t hi h
  have hlife := (exec_frame h).life
  obtain ⟨l, g, r, rfl, hg, hl⟩ := exec_unitAnswer hi h
  exact ⟨rfl, rfl, rfl, rfl, rfl, fun hr hf hp => hg (isBuild_eq_false hr hf hp),
    fun hr hs => hl (isStepper_eq_false hr hs),
    fun m hm => (hm ▸ hlife).ready (isConfig_eq_false_of_not_host hi)⟩

/-! ### A message in two commands (30_encoding.md R52) -/

theorem exec_encm {s : State} {m : Enigma} (hs : s.lc = .ready m) (cs : List Byte) :
    exec (.encm cs) s =
      .next ((s.setMachine (m.encodeChars s.cfg cs).machine).respond (m.encodeChars s.cfg cs).response) :=
  whenReady_ready hs _

/-- What a response to ENCM says of the message (30_encoding.md R53). -/
theorem exec_encm_response {s t : State} {m : Enigma} {cs out : List Byte} {st ll : Byte} (hs : s.lc = .ready m)
    (h : exec (.encm cs) s = .next t) (hr : t.rsp = s.rsp ++ [st :: ll :: out]) :
    t.cfg = s.cfg ∧ t.lc = .ready (m.encodeChars s.cfg cs).machine ∧ (m.encodeChars s.cfg cs).out = out ∧
      (if (m.encodeChars s.cfg cs).complete then Status.ok.code else Status.unencodable.code) = st := by
  rw [exec_encm hs] at h
  cases h
  have hresp : (m.encodeChars s.cfg cs).response = st :: ll :: out := by simpa using hr
  rw [Encoding.response, List.cons.injEq, List.cons.injEq] at hresp
  obtain ⟨hst, -, hout⟩ := hresp
  exact ⟨rfl, rfl, hout, hst⟩

/-- Status OK means that every character was encoded. -/
theorem complete_of_status {c : Bool}
    (h : (if c then Status.ok.code else Status.unencodable.code) = 0x00) : c = true := by
  cases c with
  | true => rfl
  | false => exact absurd h (by decide)

/-- Settles O56: the first part is complete, so the second goes on from the machine it left. -/
theorem splitMessagesConcatenate : Obligations.SplitMessagesConcatenate := by
  intro s t u m a b outA outB la lb st hs ha hat hb hbt
  obtain ⟨hcfg, hlcA, houtA, hstA⟩ := exec_encm_response hs ha hat
  obtain ⟨-, hlcB, houtB, hstB⟩ := exec_encm_response hlcA hb hbt
  rw [hcfg] at hlcB houtB hstB
  have happ := m.encodeChars_append s.cfg a b (complete_of_status hstA)
  refine ⟨_, exec_encm hs _, ?machine, ?response⟩
  case machine => rw [hlcB, State.respond_lc, State.setMachine_lc, happ]
  case response =>
    rw [State.respond_rsp, State.setMachine_rsp, happ, Encoding.response, houtA, houtB, hstB, List.length_append,
      countByte]

end Sys2Proof.Machine


/-! SUPPORT. Which error the wiring scan and RBUILD report, said once per defect, and how RBUILD's outcome reaches the staging
copy (40_rotor_wiring_table.md R66 to R70), and the statements of 40_rotor_wiring_table.md that follow. -/

namespace Sys2Proof.Machine

/-! ### The one defect of a wiring (40_rotor_wiring_table.md R67) -/

theorem scanWiring_invalid {w : Wiring} (hbad : ∃ k, Config.isLetter (wiringChar w k) = false)
    (hn : NoRepeatedTarget w) : scanWiring w = .error .invalidWiring := by
  cases hs : scanWiring w with
  | ok raw =>
    obtain ⟨k, hk⟩ := hbad
    exact absurd ((scanWiring_legal hs).1 k) (by simp [hk])
  | error e =>
    rcases scanWiring_error hs with ⟨rfl, -⟩ | ⟨-, hrep⟩
    · rfl
    · exact absurd hn hrep

theorem scanWiring_duplicate {w : Wiring} (hl : ∀ k, Config.isLetter (wiringChar w k) = true)
    (hrep : ¬ NoRepeatedTarget w) : scanWiring w = .error .duplicateWiring := by
  cases hs : scanWiring w with
  | ok raw => exact absurd (fun j k _ => (scanWiring_legal hs).2 j k) hrep
  | error e =>
    rcases scanWiring_error hs with ⟨-, k, hk⟩ | ⟨rfl, -⟩
    · exact absurd (hl k) (by simp [hk])
    · rfl

/-! ### The stages of RBUILD, by the first that fails (40_rotor_wiring_table.md R70) -/

theorem buildRotor_wiring {r : RotorRecord} {e : Status} (h : scanWiring r.w = .error e) : buildRotor r = .error e := by
  simp only [buildRotor, h]

theorem buildRotor_ring {r : RotorRecord} (hw : LegalWiring r.w) (h : 25 < r.ring.toNat) :
    buildRotor r = .error .invalidRingSetting := by
  obtain ⟨raw, hraw⟩ := scanWiring_complete hw
  simp only [buildRotor, hraw, symbolOfByte?_none h]

theorem buildRotor_pos {r : RotorRecord} (hw : LegalWiring r.w) (hr : r.ring.toNat ≤ 25) (h : 25 < r.pos.toNat) :
    buildRotor r = .error .invalidPosition := by
  obtain ⟨raw, hraw⟩ := scanWiring_complete hw
  simp only [buildRotor, hraw, symbolOfByte?_some hr, symbolOfByte?_none h]

/-- The slots are legal exactly if neither check of them raises (40_rotor_wiring_table.md R69). -/
theorem legalSlots_iff {r : RotorRecord} : LegalSlots r ↔
    slotOutOfRange (r.nv.getLsbD 0) r.n0 = false ∧ slotOutOfRange (r.nv.getLsbD 1) r.n1 = false := by
  rw [slotOutOfRange_eq_false, slotOutOfRange_eq_false]

theorem buildRotor_notch {r : RotorRecord} (hw : LegalWiring r.w) (hr : r.ring.toNat ≤ 25) (hp : r.pos.toNat ≤ 25)
    (h : ¬ LegalSlots r) : buildRotor r = .error .invalidNotch := by
  obtain ⟨raw, hraw⟩ := scanWiring_complete hw
  simp only [buildRotor, hraw, symbolOfByte?_some hr, symbolOfByte?_some hp]
  cases h0 : slotOutOfRange (r.nv.getLsbD 0) r.n0 with
  | true => rfl
  | false =>
    cases h1 : slotOutOfRange (r.nv.getLsbD 1) r.n1 with
    | true => rfl
    | false => exact absurd (legalSlots_iff.2 ⟨h0, h1⟩) h

/-! ### RBUILD below `N_MAX` (40_rotor_wiring_table.md R66) -/

/-- Below `N_MAX` the build alone decides. -/
theorem exec_rbuild {s : State} {j : Byte} (hj : j.toNat < s.cfg.nMax.toNat) (r : RotorRecord) :
    exec (.rbuild j r) s = .next (s.finishBuild (s.staging.rbuild j.toNat r)) :=
  if_neg (Nat.not_le.2 hj)

theorem exec_rbuild_ok {s : State} {j : Byte} {r : RotorRecord} {rotor : Rotor} (hj : j.toNat < s.cfg.nMax.toNat)
    (h : buildRotor r = .ok rotor) : exec (.rbuild j r) s = .next { s with
      staging := { s.staging with rotors := setSlot j.toNat rotor s.staging.rotors }
      busResult := some .done } := by
  rw [exec_rbuild hj, Staging.rbuild, h]
  rfl

theorem exec_rbuild_error {s : State} {j : Byte} {r : RotorRecord} {e : Status} (hj : j.toNat < s.cfg.nMax.toNat)
    (h : buildRotor r = .error e) :
    exec (.rbuild j r) s = .next { s with staging := Staging.empty, busResult := some (.error e) } := by
  rw [exec_rbuild hj, Staging.rbuild, h]
  rfl

/-- Settles O26: on a legal record the build completes, and what it completes with is the rotor described. -/
theorem rbuildBuildsTheRotor : Obligations.RbuildBuildsTheRotor := by
  intro s j r hj hlegal
  obtain ⟨rotor, hbuild⟩ := buildRotor_complete hlegal
  exact ⟨rotor, exec_rbuild_ok hj hbuild, (buildRotor_spec hbuild).2, buildRotor_wf hbuild⟩

/-- Settles O30: each defect stops the build at its own stage, and the bus reports what the build raised. -/
theorem rbuildReportsItsOnlyDefect : Obligations.RbuildReportsItsOnlyDefect := by
  intro s j r hj
  refine ⟨fun hbad hn _ _ _ => exec_rbuild_error hj ?invalid, fun hl hrep _ _ _ => exec_rbuild_error hj ?duplicate,
    fun hw hring _ _ => exec_rbuild_error hj ?ring, fun hw hring hpos _ => exec_rbuild_error hj ?pos,
    fun hw hring hpos hs => exec_rbuild_error hj ?notch⟩
  case invalid => exact buildRotor_wiring (scanWiring_invalid hbad hn)
  case duplicate => exact buildRotor_wiring (scanWiring_duplicate hl hrep)
  case ring => exact buildRotor_ring hw hring
  case pos => exact buildRotor_pos hw hring hpos
  case notch => exact buildRotor_notch hw hring hpos hs

end Sys2Proof.Machine


/-! SUPPORT. What a micro-operation on a rotor below `N` runs, what the two traversals answer on it, and a traversal of a
table with the ring setting applied (41_rotor_signal_path.md R74, R75, R78), and the statements of 41_rotor_signal_path.md
that follow. -/

namespace Sys2Proof.Machine

/-! ### A rotor below `N` (30_encoding.md R54) -/

theorem Enigma.stack_getElem?_of_lt {m : Enigma} {k : Nat} (h : k < m.n.toNat) : m.stack[k]? = m.rotors[k]? :=
  List.getElem?_take_of_lt h

theorem withRotor_ready {s : State} {m : Enigma} {j : Byte} {r : Rotor} (hs : s.lc = .ready m)
    (hr : m.stack[j.toNat]? = some r) (k : Enigma → Rotor → Result) : s.withRotor j k = k m r := by
  rw [State.withRotor, withMachine_ready hs, hr]

/-- With R26 every index below `N` names a rotor (10_state.md R13, R26). -/
theorem Enigma.wf_stack_getElem? {cfg : Config} {m : Enigma} (h : m.wf cfg = true) {k : Nat} (hk : k < m.n.toNat) :
    ∃ r, m.stack[k]? = some r := by
  rw [Enigma.wf_stack h]
  exact ⟨_, List.getElem?_eq_getElem ((Enigma.wf_length h).1 ▸ hk)⟩

/-! ### TRAVF and TRAVB (41_rotor_signal_path.md R74, R75) -/

theorem exec_travf {s : State} {m : Enigma} {j : Byte} {r : Rotor} (hs : s.lc = .ready m)
    (hr : m.stack[j.toNat]? = some r) (x : Symbol26) :
    exec (.travf j x) s = .next { s with busResult := some (.symbol (r.travf x)) } :=
  withRotor_ready hs hr _

theorem exec_travb {s : State} {m : Enigma} {j : Byte} {r : Rotor} (hs : s.lc = .ready m)
    (hr : m.stack[j.toNat]? = some r) (x : Symbol26) :
    exec (.travb j x) s = .next { s with busResult := some (.symbol (r.travb x)) } :=
  withRotor_ready hs hr _

/-- Settles O32: on a rotor below `N` the operation answers the traversal, which is the shifted lookup. -/
theorem traversalsReturnTheShiftedLookup : Obligations.TraversalsReturnTheShiftedLookup := by
  intro s m j r x hs hj hr
  rw [← Enigma.stack_getElem?_of_lt hj] at hr
  exact ⟨exec_travf hs hr x, exec_travb hs hr x⟩

/-- Settles O33: by R26 the tables are inverse to each other, and both operations enter and leave at one position. -/
theorem traversalsAreInverse : Obligations.TraversalsAreInverse := by
  intro s m j x hinv hs hj
  have hwf : m.wf s.cfg = true := ((State.inv_iff s).1 hinv).2 m hs
  obtain ⟨r, hr⟩ := Enigma.wf_stack_getElem? hwf hj
  obtain ⟨hbf, hfb⟩ := Enigma.wf_rotor hwf (List.mem_of_getElem? hr)
  have hback : r.travb (r.travf x) = x := traverse_inverse r.fwd r.bwd hbf r.pos x
  have hforth : r.travf (r.travb x) = x := traverse_inverse r.bwd r.fwd hfb r.pos x
  refine ⟨⟨r.travf x, exec_travf hs hr x, ?back⟩, ⟨r.travb x, exec_travb hs hr x, ?forth⟩⟩
  case back => rw [exec_travb hs hr, hback]
  case forth => rw [exec_travf hs hr, hforth]

/-! ### Position and ring setting (41_rotor_signal_path.md R78) -/

theorem mod26_add_symbol (v : Int) (x : Symbol26) : mod26 (v + x.val) = mod26 v + x := by
  rw [← mod26_add]
  apply Fin.ext
  simp only [mod26]
  omega

theorem mod26_sub_symbol (v : Int) (x : Symbol26) : mod26 (v - x.val) = mod26 v - x := by
  rw [eq_sub_iff_add_eq, ← mod26_add_symbol, sub_add_cancel]

/-- A crossing of a table that sends `k + ring` to `y + ring`: the ring setting enters with the sign opposite to that of
the position, on both sides (40_rotor_wiring_table.md R68, 41_rotor_signal_path.md R78). -/
theorem traverse_ringShifted {t : Table} {ring k y p x : Symbol26} (ht : memRead t (k + ring) = y + ring)
    (hx : mod26 (x.val + p.val - ring.val) = k) : traverse t p x = mod26 (y.val - p.val + ring.val) := by
  have henter : x + p = k + ring := by rw [← hx, mod26_sub_symbol, mod26_add, sub_add_cancel]
  calc traverse t p x
      = y + ring - p := by rw [traverse_eq, henter, ht]
    _ = mod26 (y.val - p.val + ring.val) := by rw [mod26_add_symbol, mod26_sub, add_sub_right_comm]

/-- Settles O34: RBUILD's tables are the raw wiring shifted by the ring setting, and both directions cross such a table. -/
theorem traversalDependsOnPositionMinusRing : Obligations.TraversalDependsOnPositionMinusRing := by
  intro r rotor p x k y hbuild hraw
  obtain ⟨-, -, -, -, htables⟩ := buildRotor_spec hbuild
  obtain ⟨hfwd, hbwd⟩ := htables k y hraw
  rw [mod26_add, mod26_add] at hfwd hbwd
  exact ⟨traverse_ringShifted hfwd, traverse_ringShifted hbwd⟩

end Sys2Proof.Machine


/-! SUPPORT. What NOTCHQ, RSTEP and SSTEP run on a machine that exists (42_rotor_stepper.md R81 to R83), and that every
keystroke, character and message is a number of SSTEPs (45_enigma_engine.md R110 to R113), and the statements of
42_rotor_stepper.md that follow. -/

namespace Sys2Proof.Machine

/-! ### NOTCHQ and RSTEP (42_rotor_stepper.md R81, R82) -/

theorem stepAt_eq_set {rs : List Rotor} {i : Nat} {r : Rotor} (h : rs[i]? = some r) :
    stepAt i rs = rs.set i r.step := by
  simp [stepAt, List.modify_eq_set_getElem?, h]

theorem exec_notchq {s : State} {m : Enigma} {j : Byte} {r : Rotor} (hs : s.lc = .ready m)
    (hr : m.stack[j.toNat]? = some r) :
    exec (.notchq j) s = .next { s with busResult := some (.bit r.engaged) } :=
  withRotor_ready hs hr _

theorem exec_rstep {s : State} {m : Enigma} {j : Byte} {r : Rotor} (hs : s.lc = .ready m)
    (hr : m.stack[j.toNat]? = some r) :
    exec (.rstep j) s =
      .next { s with lc := .ready { m with rotors := stepAt j.toNat m.rotors }, busResult := some .done } :=
  withRotor_ready hs hr _

/-- Settles O36: on a rotor below `N` the unit answers the rotor's engagement, which is that bit. -/
theorem notchqReturnsTheNotchBit : Obligations.NotchqReturnsTheNotchBit := by
  intro s m j r hs hj hr
  rw [← Enigma.stack_getElem?_of_lt hj] at hr
  exact exec_notchq hs hr

/-- Settles O37: on a rotor below `N` the unit replaces that rotor by its successor. -/
theorem rstepAdvancesOneRotor : Obligations.RstepAdvancesOneRotor := by
  intro s m j r hs hj hr
  rw [exec_rstep hs ((Enigma.stack_getElem?_of_lt hj).trans hr), stepAt_eq_set hr, Rotor.step]

/-! ### SSTEP (42_rotor_stepper.md R83 to R86) -/

theorem exec_sstep {s : State} {m : Enigma} (hs : s.lc = .ready m) :
    exec .sstep s = .next { s with lc := .ready m.sstep, busResult := some .done } :=
  withMachine_ready hs _

/-- Settles O38: SSTEP runs the step of the stack, whose outcome on three rotors or more is the table. -/
theorem sstepOutcomeTable : Obligations.SstepOutcomeTable := by
  intro s m r0 r1 r2 more hs hrot
  rw [exec_sstep hs, Enigma.sstep, hrot, stepStack_cons]
  simp only [Bool.or_eq_true]
  rfl

theorem Rotor.step_step (r : Rotor) : r.step.step = { r with pos := mod26 (r.pos.val + 2) } := by
  have hpos : r.step.step.pos = mod26 (r.pos.val + 2) := by
    calc r.step.step.pos
        = r.pos + 1 + 1 := by rw [step_pos, step_pos, mod26_succ, mod26_succ]
      _ = r.pos + 2 := by rw [add_assoc]; rfl
      _ = mod26 (r.pos.val + 2) := (mod26_add r.pos 2).symm
  rw [← hpos]
  rfl

/-- The first step takes rotor 1 onto its notch, and the second takes it off and rotor 2 with it (42_rotor_stepper.md
R86). Whether rotor 0 still stands on a notch then makes no difference: rotor 1 is scheduled already (D27, log 10). -/
theorem stepStack_doubleStep {r0 r1 : Rotor} (h0 : r0.engaged = true) (h1 : r1.engaged = false)
    (h1' : r1.step.engaged = true) (r2 : Rotor) (more : List Rotor) :
    stepStack (stepStack (r0 :: r1 :: r2 :: more)) = r0.step.step :: r1.step.step :: r2.step :: more := by
  have hfirst : stepStack (r0 :: r1 :: r2 :: more) = r0.step :: r1.step :: r2 :: more := by
    simp [stepStack_cons, h0, h1]
  rw [hfirst, stepStack_cons]
  simp [h1']

/-- Settles O39: two SSTEPs are two steps of the stack, and those are the double step. -/
theorem doubleStepAnomaly : Obligations.DoubleStepAnomaly := by
  intro s m r0 r1 r2 more hs hrot h0 h1 h1'
  refine ⟨_, _, exec_sstep hs, exec_sstep rfl, ?_⟩
  have htwo : m.sstep.sstep.rotors = r0.step.step :: r1.step.step :: r2.step :: more := by
    rw [Enigma.sstep_rotors, Enigma.sstep_rotors, hrot, stepStack_doubleStep h0 h1 h1']
  rw [Rotor.step_step, Rotor.step_step] at htwo
  exact congrArg (fun rotors => Life.ready { m with rotors }) htwo

/-! ### The period of rotor 0 (42_rotor_stepper.md R87) -/

/-- A full turn from position `a` meets position `p` at one step of the 26. -/
theorem countP_turn (a p : Symbol26) : ((List.range 26).countP fun k : Nat => mod26 (a.val + k) == p) = 1 := by
  have hmeet : ∀ k ∈ List.range 26, (mod26 (a.val + k) == p) = true ↔ (k == (p - a).val) = true := by
    intro k hk
    rw [beq_iff_eq, beq_iff_eq, add_comm, mod26_index_iff (List.mem_range.1 hk), eq_comm]
  rw [List.countP_congr hmeet]
  exact List.count_eq_one_of_mem List.nodup_range (List.mem_range.2 (p - a).isLt)

/-- Settles O40: rotor 0 moves by one at every SSTEP, whatever its notches, so 26 of them are a full turn. -/
theorem rotorZeroHasPeriod26 : Obligations.RotorZeroHasPeriod26 := by
  intro m r0 more hrot
  have hzero := m.sstep_iterate_zero r0 more hrot
  refine ⟨?period, fun p hp => ?once⟩
  case period =>
    have hturn : mod26 (r0.pos.val + (26 : Nat)) = r0.pos := mod26_unique _ _ ⟨1, by omega⟩
    rw [hzero, hturn, Option.map_some]
  case once =>
    have hon : ∀ k, engagedAt (Enigma.sstep^[k] m).rotors 0 = (mod26 (r0.pos.val + k) == p) := by
      intro k
      rw [engagedAt, hzero, Option.any_some, Bool.eq_iff_iff, beq_iff_eq]
      exact hp _
    simp only [hon]
    exact countP_turn r0.pos p

/-! ### Keystrokes are SSTEPs (42_rotor_stepper.md R85) -/

/-- One character steps the machine once or not at all (45_enigma_engine.md R112). -/
theorem Enigma.encodeChar_machine {cfg : Config} {m m' : Enigma} {c d : Byte}
    (h : m.encodeChar cfg c = some (m', d)) : m' = m.sstep ∨ m' = m := by
  rcases char_cases cfg c with ⟨x, hx⟩ | ⟨hl, hp⟩ | ho
  · rw [Enigma.encodeChar_letter cfg m hx] at h
    cases h
    exact .inl rfl
  · rw [Enigma.encodeChar_passes cfg m hl hp] at h
    cases h
    exact .inr rfl
  · rw [Enigma.encodeChar_other cfg m ho] at h
    cases h

/-- A message is a number of SSTEPs (45_enigma_engine.md R113). -/
theorem Enigma.encodeChars_machine (cfg : Config) (m : Enigma) (cs : List Byte) :
    ∃ j, (m.encodeChars cfg cs).machine = Enigma.sstep^[j] m := by
  induction cs generalizing m with
  | nil => exact ⟨0, rfl⟩
  | cons c cs ih =>
    cases hc : m.encodeChar cfg c with
    | none => exact ⟨0, by rw [Enigma.encodeChars_none hc]; rfl⟩
    | some p =>
      obtain ⟨m', d⟩ := p
      rw [Enigma.encodeChars_some hc]
      obtain ⟨j, hj⟩ := ih m'
      rcases Enigma.encodeChar_machine hc with rfl | rfl
      · exact ⟨j + 1, hj⟩
      · exact ⟨j, hj⟩

/-- An ENCS that answers is one SSTEP or, refused, none (45_enigma_engine.md R110). -/
theorem exec_encs_lc {s t : State} {m : Enigma} {ss : Byte} (hs : s.lc = .ready m) (h : exec (.encs ss) s = .next t) :
    ∃ j, t.lc = .ready (Enigma.sstep^[j] m) := by
  replace h := (whenReady_ready hs _).symm.trans h
  split at h <;> cases h
  · exact ⟨0, hs⟩
  · exact ⟨1, rfl⟩

/-- An ENCC that answers is one SSTEP or none (45_enigma_engine.md R112). -/
theorem exec_encc_lc {s t : State} {m : Enigma} {cc : Byte} (hs : s.lc = .ready m) (h : exec (.encc cc) s = .next t) :
    ∃ j, t.lc = .ready (Enigma.sstep^[j] m) := by
  replace h := (whenReady_ready hs _).symm.trans h
  split at h <;> cases h
  · exact ⟨0, hs⟩
  · rename_i hc
    rcases Enigma.encodeChar_machine hc with rfl | rfl
    · exact ⟨1, rfl⟩
    · exact ⟨0, rfl⟩

/-- An ENCM is a number of SSTEPs (45_enigma_engine.md R113). -/
theorem exec_encm_lc {s t : State} {m : Enigma} {cs : List Byte} (hs : s.lc = .ready m)
    (h : exec (.encm cs) s = .next t) : ∃ j, t.lc = .ready (Enigma.sstep^[j] m) := by
  rw [exec_encm hs] at h
  cases h
  exact (m.encodeChars_machine s.cfg cs).imp fun _ hj => congrArg Life.ready hj

theorem exec_sstep_lc {s t : State} {m : Enigma} (hs : s.lc = .ready m) (h : exec .sstep s = .next t) :
    t.lc = .ready m.sstep := by
  rw [exec_sstep hs] at h
  cases h
  rfl

/-- No number of SSTEPs moves a rotor of index 3 or above (42_rotor_stepper.md R85). -/
theorem Enigma.sstep_iterate_beyond (m : Enigma) {k : Nat} (hk : 3 ≤ k) (j : Nat) :
    (Enigma.sstep^[j] m).rotors[k]? = m.rotors[k]? := by
  induction j with
  | zero => rfl
  | succ j ih =>
    rw [Function.iterate_succ_apply', Enigma.sstep_rotors, stepStack_getElem?, if_neg (by omega), ih]

/-- Settles O41: each of the four operations is a number of SSTEPs, and SSTEP leaves those rotors alone. -/
theorem rotorsBeyondTheThirdNeverStep : Obligations.RotorsBeyondTheThirdNeverStep := by
  intro s t m m' k hs ht hk h
  have hsteps : ∃ j, t.lc = .ready (Enigma.sstep^[j] m) := by
    rcases h with ⟨_, h⟩ | ⟨_, h⟩ | ⟨_, h⟩ | h
    · exact exec_encs_lc hs h
    · exact exec_encc_lc hs h
    · exact exec_encm_lc hs h
    · exact ⟨1, exec_sstep_lc hs h⟩
  obtain ⟨j, hj⟩ := hsteps
  obtain rfl : m' = Enigma.sstep^[j] m := Life.ready.inj (ht.symm.trans hj)
  exact m.sstep_iterate_beyond hk j

/-! ### What the new positions depend on (42_rotor_stepper.md R88) -/

/-- Settles O42: both machines after SSTEP are the step of their stack, which reads nothing else of it. -/
theorem steppingDependsOnPositionsAndTwoNotchSets : Obligations.SteppingDependsOnPositionsAndTwoNotchSets := by
  intro s s' t t' m m' n n' hs hs' hpos hnotch h h' hn hn'
  obtain rfl : n = m.sstep := Life.ready.inj (hn.symm.trans (exec_sstep_lc hs h))
  obtain rfl : n' = m'.sstep := Life.ready.inj (hn'.symm.trans (exec_sstep_lc hs' h'))
  exact stepStack_positions hpos hnotch

end Sys2Proof.Machine


/-! SUPPORT. Which error PBUILD reports, said once per defect, how the outcomes of FBUILD and PBUILD reach the staging copy
(43_reflector_path.md R92, 44_plugboard_substitution.md R99, R101), and what REFL and PLUG answer on a machine that exists
(43_reflector_path.md R93, 44_plugboard_substitution.md R102), and the statements of 43_reflector_path.md that follow. -/

namespace Sys2Proof.Machine

/-! ### REFL and PLUG (43_reflector_path.md R93, 44_plugboard_substitution.md R102) -/

theorem exec_refl {s : State} {m : Enigma} (hs : s.lc = .ready m) (x : Symbol26) :
    exec (.refl x) s = .next { s with busResult := some (.symbol (m.reflect x)) } :=
  withMachine_ready hs _

theorem exec_plug {s : State} {m : Enigma} (hs : s.lc = .ready m) (x : Symbol26) :
    exec (.plug x) s = .next { s with busResult := some (.symbol (m.plugPass x)) } :=
  withMachine_ready hs _

/-- Settles O43: on a machine that exists each unit answers its pass, which is one entry of its table. -/
theorem reflectorAndPlugboardReturnOneEntry : Obligations.ReflectorAndPlugboardReturnOneEntry :=
  fun _ _ x hs => ⟨exec_refl hs x, exec_plug hs x⟩

/-! ### FBUILD (43_reflector_path.md R92) -/

theorem exec_fbuild_ok {rw : Wiring} {t : Table} (h : buildReflector rw = .ok t) (s : State) :
    exec (.fbuild rw) s =
      .next { s with staging := { s.staging with refl := some t }, busResult := some .done } := by
  rw [exec, execFbuild, Staging.fbuild, h]
  rfl

theorem exec_fbuild_error {rw : Wiring} {e : Status} (h : buildReflector rw = .error e) (s : State) :
    exec (.fbuild rw) s = .next { s with staging := Staging.empty, busResult := some (.error e) } := by
  rw [exec, execFbuild, Staging.fbuild, h]
  rfl

/-- The scan is the only check of a reflector wiring (43_reflector_path.md R92, R94). -/
theorem buildReflector_wiring {rw : Wiring} {e : Status} (h : scanWiring rw = .error e) :
    buildReflector rw = .error e := by
  simp only [buildReflector, h]

/-- Settles O27: on a legal wiring the build completes, and what it completes with is the wiring as given. -/
theorem fbuildBuildsTheReflector : Obligations.FbuildBuildsTheReflector := by
  intro s rw hlegal
  obtain ⟨t, hbuild⟩ := buildReflector_complete hlegal
  exact ⟨t, exec_fbuild_ok hbuild s, (buildReflector_spec hbuild).2⟩

/-! ### PBUILD: the one defect of its operands (44_plugboard_substitution.md R99, R101) -/

theorem exec_pbuild_error {cap : Byte} {pairs : List Pair} {e : Status} (h : buildPlugboard cap pairs = .error e)
    (s : State) :
    exec (.pbuild cap pairs) s = .next { s with staging := Staging.empty, busResult := some (.error e) } := by
  rw [exec, execPbuild, Staging.pbuild, h]
  rfl

/-- An illegal pair list is reported, and as a defect that it has. -/
theorem buildPlugboard_illegal {cap : Byte} {pairs : List Pair} (h : ¬ LegalPairs cap pairs) :
    ∃ e, buildPlugboard cap pairs = .error e ∧
      ((e = .tooManyPairs ∧ cap.toNat < pairs.length) ∨ (e = .selfPair ∧ ¬ NoSelfPair pairs) ∨
        (e = .outOfRange ∧ ¬ PairsInRange pairs) ∨ (e = .reused ∧ ¬ PairsApart pairs)) := by
  cases hb : buildPlugboard cap pairs with
  | ok t => exact absurd (buildPlugboard_spec hb).1 h
  | error e => exact ⟨e, rfl, buildPlugboard_error_cases hb⟩

theorem buildPlugboard_tooManyPairs {cap : Byte} {pairs : List Pair} (h : cap.toNat < pairs.length) :
    buildPlugboard cap pairs = .error .tooManyPairs :=
  if_pos h

theorem buildPlugboard_selfPair {cap : Byte} {pairs : List Pair} (hcap : pairs.length ≤ cap.toNat)
    (hrange : PairsInRange pairs) (hself : ¬ NoSelfPair pairs) (hapart : PairsApart pairs) :
    buildPlugboard cap pairs = .error .selfPair := by
  obtain ⟨e, hb, ⟨-, h⟩ | ⟨rfl, -⟩ | ⟨-, h⟩ | ⟨-, h⟩⟩ :=
    buildPlugboard_illegal (cap := cap) fun ⟨_, _, hn⟩ => hself (pairs_nodup.1 hn).1
  · exact absurd hcap (Nat.not_le.2 h)
  · exact hb
  · exact absurd hrange h
  · exact absurd hapart h

theorem buildPlugboard_outOfRange {cap : Byte} {pairs : List Pair} (hcap : pairs.length ≤ cap.toNat)
    (hrange : ¬ PairsInRange pairs) (hself : NoSelfPair pairs) (hapart : PairsApart pairs) :
    buildPlugboard cap pairs = .error .outOfRange := by
  obtain ⟨e, hb, ⟨-, h⟩ | ⟨-, h⟩ | ⟨rfl, -⟩ | ⟨-, h⟩⟩ :=
    buildPlugboard_illegal (cap := cap) fun ⟨_, hr, _⟩ => hrange hr
  · exact absurd hcap (Nat.not_le.2 h)
  · exact absurd hself h
  · exact hb
  · exact absurd hapart h

theorem buildPlugboard_reused {cap : Byte} {pairs : List Pair} (hcap : pairs.length ≤ cap.toNat)
    (hrange : PairsInRange pairs) (hself : NoSelfPair pairs) (hapart : ¬ PairsApart pairs) :
    buildPlugboard cap pairs = .error .reused := by
  obtain ⟨e, hb, ⟨-, h⟩ | ⟨-, h⟩ | ⟨-, h⟩ | ⟨rfl, -⟩⟩ :=
    buildPlugboard_illegal (cap := cap) fun ⟨_, _, hn⟩ => hapart (pairs_nodup.1 hn).2
  · exact absurd hcap (Nat.not_le.2 h)
  · exact absurd hself h
  · exact absurd hrange h
  · exact hb

/-- Settles O31: the build raises the one defect there is, and the bus reports what the build raised. -/
theorem fbuildAndPbuildReportTheirOnlyDefect : Obligations.FbuildAndPbuildReportTheirOnlyDefect := by
  refine ⟨fun s rw => ⟨fun hbad hn => exec_fbuild_error ?invalid s, fun hl hrep => exec_fbuild_error ?duplicate s⟩,
    fun s cap pairs => ⟨fun hcap _ _ _ => exec_pbuild_error ?tooMany s,
      fun hcap hrange hself hapart => exec_pbuild_error ?selfPair s,
      fun hcap hrange hself hapart => exec_pbuild_error ?outOfRange s,
      fun hcap hrange hself hapart => exec_pbuild_error ?reused s⟩⟩
  case invalid => exact buildReflector_wiring (scanWiring_invalid hbad hn)
  case duplicate => exact buildReflector_wiring (scanWiring_duplicate hl hrep)
  case tooMany => exact buildPlugboard_tooManyPairs hcap
  case selfPair => exact buildPlugboard_selfPair hcap hrange hself hapart
  case outOfRange => exact buildPlugboard_outOfRange hcap hrange hself hapart
  case reused => exact buildPlugboard_reused hcap hrange hself hapart

end Sys2Proof.Machine


/-! SUPPORT. How a completed PBUILD reaches the staging copy (44_plugboard_substitution.md R98, R99), and the statement of
44_plugboard_substitution.md that follows. -/

namespace Sys2Proof.Machine

theorem exec_pbuild_ok {cap : Byte} {pairs : List Pair} {t : Table} (h : buildPlugboard cap pairs = .ok t) (s : State) :
    exec (.pbuild cap pairs) s =
      .next { s with staging := { s.staging with plug := some t, pairCap := some cap }, busResult := some .done } := by
  rw [exec, execPbuild, Staging.pbuild, h]
  rfl

/-- Settles O28: on a legal pair list the build completes, and what it completes with is the plugboard of the list
(`buildPlugboard_spec`), symmetric and with two symbols moved by each pair (`buildPlugboard_ok`). -/
theorem pbuildBuildsThePlugboard : Obligations.PbuildBuildsThePlugboard := by
  intro s cap pairs hlegal
  obtain ⟨t, hbuild⟩ := buildPlugboard_complete hlegal
  obtain ⟨hinvolutive, hmoved, -, -⟩ := buildPlugboard_ok hbuild
  exact ⟨t, exec_pbuild_ok hbuild s, (buildPlugboard_spec hbuild).2, hinvolutive, hmoved⟩

end Sys2Proof.Machine


/-! SUPPORT. What CONFIG answers by the outcome of its builds, which error it reports, and what its builds issued as
micro-operations stage (45_enigma_engine.md R107 to R109), and the statements on CONFIG that follow. -/

namespace Sys2Proof.Machine

/-! ### The two endings of CONFIG within the capacity (45_enigma_engine.md R108, R109) -/

section
variable {s : State} {cap : Byte} {rots : List RotorRecord} {rw : Wiring} {pairs : List Pair}

theorem exec_config_ok {m : Enigma} (hmax : rots.length ≤ s.cfg.nMax.toNat)
    (h : buildMachine cap rots rw pairs = .ok m) :
    exec (.config cap rots rw pairs) s =
      .next { s with lc := .ready m, staging := Staging.empty, rsp := s.rsp ++ [[0x00]] } := by
  rw [exec, execConfig, if_neg (Nat.not_lt.2 hmax), h]
  rfl

theorem exec_config_error {e : Status} (hmax : rots.length ≤ s.cfg.nMax.toNat)
    (h : buildMachine cap rots rw pairs = .error e) :
    exec (.config cap rots rw pairs) s =
      .next { s with lc := .unconfigured, staging := Staging.empty, rsp := s.rsp ++ [[e.code]] } := by
  rw [exec, execConfig, if_neg (Nat.not_lt.2 hmax), h]
  rfl

end

/-- Settles O24: the builds see the operands alone, and both blocks end as the builds do. -/
theorem configReadsOnlyItsOperands : Obligations.ConfigReadsOnlyItsOperands := by
  intro s s' cap rots rw pairs hmax hmax'
  cases hb : buildMachine cap rots rw pairs with
  | ok m => exact ⟨.ready m, 0x00, exec_config_ok hmax hb, exec_config_ok hmax' hb⟩
  | error e => exact ⟨.unconfigured, e.code, exec_config_error hmax hb, exec_config_error hmax' hb⟩

/-! ### The errors of the components (45_enigma_engine.md R108) -/

theorem LegalRecord.buildRotor_ne_error {r : RotorRecord} (h : LegalRecord r) (e : Status) :
    buildRotor r ≠ .error e := by
  obtain ⟨rotor, hb⟩ := buildRotor_complete h
  simp [hb]

theorem LegalWiring.buildReflector_ne_error {w : Wiring} (h : LegalWiring w) (e : Status) :
    buildReflector w ≠ .error e := by
  obtain ⟨t, hb⟩ := buildReflector_complete h
  simp [hb]

theorem LegalPairs.buildPlugboard_ne_error {cap : Byte} {pairs : List Pair} (h : LegalPairs cap pairs) (e : Status) :
    buildPlugboard cap pairs ≠ .error e := by
  obtain ⟨t, hb⟩ := buildPlugboard_complete h
  simp [hb]

/-- One of the components of a CONFIG is built with this error. -/
def ComponentError (cap : Byte) (rots : List RotorRecord) (rw : Wiring) (pairs : List Pair) (e : Status) : Prop :=
  (∃ (k : Nat) (r : RotorRecord), rots[k]? = some r ∧ buildRotor r = .error e) ∨ buildReflector rw = .error e ∨
    buildPlugboard cap pairs = .error e

section
variable {cap : Byte} {rots : List RotorRecord} {rw : Wiring} {pairs : List Pair}

theorem buildMachine_componentError {e : Status} (hn : 3 ≤ rots.length)
    (h : buildMachine cap rots rw pairs = .error e) : ComponentError cap rots rw pairs e := by
  rcases buildMachine_error h with ⟨hlt, -⟩ | ⟨-, hc⟩
  · exact absurd hn (Nat.not_le.2 hlt)
  · exact hc

theorem buildMachine_ok_not_componentError {m : Enigma} (h : buildMachine cap rots rw pairs = .ok m) (e : Status) :
    ¬ ComponentError cap rots rw pairs e := by
  obtain ⟨-, -, -, hrotors, hrefl, hplug⟩ := buildMachine_ok h
  rintro (⟨k, r, hr, he⟩ | he | he)
  · obtain ⟨rotor, -, hok⟩ := built_getElem? hrotors hr
    simp [hok] at he
  · simp [hrefl] at he
  · simp [hplug] at he

/-- With no other error among the components, CONFIG reports that of the one that has a defect. -/
theorem buildMachine_only_error {e : Status} (hn : 3 ≤ rots.length) (he : ComponentError cap rots rw pairs e)
    (honly : ∀ e', ComponentError cap rots rw pairs e' → e' = e) : buildMachine cap rots rw pairs = .error e := by
  cases hb : buildMachine cap rots rw pairs with
  | ok m => exact absurd he (buildMachine_ok_not_componentError hb e)
  | error e' => rw [honly e' (buildMachine_componentError hn hb)]

/-- The builds of CONFIG complete on legal operands (45_enigma_engine.md R108). -/
theorem buildMachine_complete (hn : 3 ≤ rots.length) (hrots : ∀ r ∈ rots, LegalRecord r) (hrw : LegalWiring rw)
    (hpairs : LegalPairs cap pairs) : ∃ m, buildMachine cap rots rw pairs = .ok m := by
  cases hb : buildMachine cap rots rw pairs with
  | ok m => exact ⟨m, rfl⟩
  | error e =>
    rcases buildMachine_componentError hn hb with ⟨k, r, hr, he⟩ | he | he
    · exact absurd he ((hrots r (List.mem_of_getElem? hr)).buildRotor_ne_error e)
    · exact absurd he (hrw.buildReflector_ne_error e)
    · exact absurd he (hpairs.buildPlugboard_ne_error e)

end

/-- Settles O20: on legal operands the builds complete, and each component is what its build says it is. -/
theorem configBuildsTheMachine : Obligations.ConfigBuildsTheMachine := by
  intro s cap rots rw pairs hn hmax hrots hrw hpairs
  obtain ⟨m, hb⟩ := buildMachine_complete hn hrots hrw hpairs
  obtain ⟨hcount, hcap, -, hrotors, hrefl, hplug⟩ := buildMachine_ok hb
  refine ⟨m, exec_config_ok hmax hb, ?count, hcap, ?length, fun i r rotor hr hrotor => ?rotor,
    (buildReflector_spec hrefl).2, (buildPlugboard_spec hplug).2⟩
  case count => rw [hcount, countByte_toNat (hmax.trans (byte_toNat_le _))]
  case length => simpa using (congrArg List.length hrotors).symm
  case rotor =>
    obtain ⟨rotor', hrotor', hok⟩ := built_getElem? hrotors hr
    obtain rfl : rotor = rotor' := Option.some.inj (hrotor.symm.trans hrotor')
    exact (buildRotor_spec hok).2

/-- Settles O22: the count is tested first, and otherwise the error is the only one among the components. -/
theorem configReportsItsOnlyDefect : Obligations.ConfigReportsItsOnlyDefect := by
  refine ⟨⟨rfl, rfl⟩, fun s cap rots rw pairs hmax => ⟨fun hlt _ _ _ => exec_config_error hmax (if_pos hlt),
    fun hn hrw hpairs i r e hr he hothers =>
      exec_config_error hmax (buildMachine_only_error hn (.inl ⟨i, r, hr, he⟩) ?rotor),
    fun hn hrots hpairs e he => exec_config_error hmax (buildMachine_only_error hn (.inr (.inl he)) ?reflector),
    fun hn hrots hrw e he => exec_config_error hmax (buildMachine_only_error hn (.inr (.inr he)) ?plugboard)⟩⟩
  case rotor =>
    rintro e' (⟨k, q, hq, he'⟩ | he' | he')
    · by_cases hk : k = i
      · subst hk
        obtain rfl : q = r := Option.some.inj (hq.symm.trans hr)
        exact Except.error.inj (he'.symm.trans he)
      · exact absurd he' ((hothers k q hq hk).buildRotor_ne_error e')
    · exact absurd he' (hrw.buildReflector_ne_error e')
    · exact absurd he' (hpairs.buildPlugboard_ne_error e')
  case reflector =>
    rintro e' (⟨k, q, hq, he'⟩ | he' | he')
    · exact absurd he' ((hrots q (List.mem_of_getElem? hq)).buildRotor_ne_error e')
    · exact Except.error.inj (he'.symm.trans he)
    · exact absurd he' (hpairs.buildPlugboard_ne_error e')
  case plugboard =>
    rintro e' (⟨k, q, hq, he'⟩ | he' | he')
    · exact absurd he' ((hrots q (List.mem_of_getElem? hq)).buildRotor_ne_error e')
    · exact absurd he' (hrw.buildReflector_ne_error e')
    · exact Except.error.inj (he'.symm.trans he)

/-! ### The builds of CONFIG as micro-operations (45_enigma_engine.md R107) -/

theorem issue_eq_some {i : Instr} {s t : State} : issue i s = some t ↔ exec i s = .next t := by
  rw [issue]
  cases exec i s <;> simp

/-- A build that reports OK is issued. -/
theorem issueBuild_done {i : Instr} {s t : State} (h : exec i s = .next t) (hr : t.busResult = some .done) :
    issueBuild i s = some t := by
  simp [issueBuild, issue_eq_some.2 h, hr]

/-- A build that reports an error ends the program. -/
theorem issueBuild_error {i : Instr} {s t : State} {e : Status} (h : exec i s = .next t)
    (hr : t.busResult = some (.error e)) : issueBuild i s = none := by
  simp [issueBuild, issue_eq_some.2 h, hr]

/-- RBUILD of records that all build appends their rotors to the slots filled so far. -/
theorem issueRbuilds_ok {rots : List RotorRecord} {rotors : List Rotor} (h : buildRotors rots = .ok rotors)
    {built : List Rotor} {s : State} (hslots : s.staging.rotors = built.map some)
    (hmax : built.length + rots.length ≤ s.cfg.nMax.toNat) :
    ∃ res, issueRbuilds built.length rots s = some { s with
      staging := { s.staging with rotors := (built ++ rotors).map some }
      busResult := res } := by
  induction rots generalizing built rotors s with
  | nil =>
    cases h
    refine ⟨s.busResult, ?_⟩
    rw [issueRbuilds, List.append_nil, ← hslots]
  | cons r rots ih =>
    simp only [buildRotors] at h
    split at h
    · cases h
    · rename_i rotor hr
      split at h
      · cases h
      · rename_i rest hrest
        cases h
        rw [List.length_cons] at hmax
        have hi : (countByte built.length).toNat = built.length :=
          countByte_toNat (by have := byte_toNat_le s.cfg.nMax; omega)
        have hexec := exec_rbuild_ok (s := s) (j := countByte built.length) (by omega) hr
        rw [hi, hslots, setSlot_length] at hexec
        have hlen : built.length + 1 = (built ++ [rotor]).length := by simp
        simp only [issueRbuilds, issueBuild_done hexec rfl, hlen]
        obtain ⟨res, hres⟩ := ih hrest (built := built ++ [rotor])
          (s := { s with
            staging := { s.staging with rotors := (built ++ [rotor]).map some }
            busResult := some .done }) rfl (by rw [List.length_append, List.length_singleton]; simp only; omega)
        exact ⟨res, by simpa using hres⟩

/-- RBUILD of records of which one does not build ends there. -/
theorem issueRbuilds_error {rots : List RotorRecord} {e : Status} (h : buildRotors rots = .error e) {i : Nat}
    {s : State} (hmax : i + rots.length ≤ s.cfg.nMax.toNat) : issueRbuilds i rots s = none := by
  induction rots generalizing i s with
  | nil => cases h
  | cons r rots ih =>
    rw [List.length_cons] at hmax
    have hi : (countByte i).toNat < s.cfg.nMax.toNat := by
      rw [countByte_toNat (by have := byte_toNat_le s.cfg.nMax; omega)]
      omega
    simp only [buildRotors] at h
    split at h
    · rename_i e' hr
      simp only [issueRbuilds, issueBuild_error (exec_rbuild_error hi hr) rfl]
    · rename_i rotor hr
      split at h
      · rename_i e' hrest
        cases h
        simp only [issueRbuilds, issueBuild_done (exec_rbuild_ok hi hr) rfl]
        exact ih hrest (by simp only; omega)
      · cases h

/-- Records that build one by one build together. -/
theorem buildRotors_of_map {rots : List RotorRecord} {rotors : List Rotor}
    (h : rots.map buildRotor = rotors.map Except.ok) : buildRotors rots = .ok rotors := by
  induction rots generalizing rotors with
  | nil =>
    obtain rfl : rotors = [] := by simpa using h.symm
    rfl
  | cons r rots ih =>
    cases rotors with
    | nil => cases h
    | cons rotor rotors =>
      obtain ⟨hr, hrest⟩ := List.cons.inj h
      simp only [buildRotors, hr, ih hrest]

section
variable {s : State} {cap : Byte} {rots : List RotorRecord} {rw : Wiring} {pairs : List Pair}

/-- From an empty staging copy the builds of a CONFIG that completes stage the machine it installs. -/
theorem issueBuilds_ok {m : Enigma} (hs : s.staging = Staging.empty) (hmax : rots.length ≤ s.cfg.nMax.toNat)
    (h : buildMachine cap rots rw pairs = .ok m) :
    ∃ t, issueBuilds cap rots rw pairs s = some t ∧ t.staging.commit (countByte rots.length) = some m := by
  obtain ⟨hcount, hcap, -, hrotors, hrefl, hplug⟩ := buildMachine_ok h
  obtain ⟨res, hres⟩ := issueRbuilds_ok (buildRotors_of_map hrotors) (built := []) (s := s) (by rw [hs]; rfl)
    (by rwa [List.length_nil, Nat.zero_add])
  have hprogram : issueBuilds cap rots rw pairs s = some { s with
      staging := { rotors := m.rotors.map some, refl := some m.refl, plug := some m.plug, pairCap := some cap }
      busResult := some .done } := by
    rw [List.length_nil] at hres
    rw [issueBuilds, hres, Option.bind_eq_bind, Option.bind_some, issueBuild_done (exec_fbuild_ok hrefl _) rfl,
      Option.bind_some, issueBuild_done (exec_pbuild_ok hplug _) rfl]
    rfl
  refine ⟨_, hprogram, ?_⟩
  simp only [Staging.commit, allBuilt_map_some, ← hcount, ← hcap]

/-- The builds of a CONFIG that fails end where a component is built with an error. -/
theorem issueBuilds_error {e : Status} (hs : s.staging = Staging.empty) (hmax : rots.length ≤ s.cfg.nMax.toNat)
    (hn : 3 ≤ rots.length) (h : buildMachine cap rots rw pairs = .error e) :
    issueBuilds cap rots rw pairs s = none := by
  cases hrotors : buildRotors rots with
  | error e' => rw [issueBuilds, issueRbuilds_error hrotors (by omega)]; rfl
  | ok rotors =>
    obtain ⟨res, hres⟩ := issueRbuilds_ok hrotors (built := []) (s := s) (by rw [hs]; rfl)
      (by rwa [List.length_nil, Nat.zero_add])
    rw [List.length_nil] at hres
    rw [issueBuilds, hres, Option.bind_eq_bind, Option.bind_some]
    cases hrefl : buildReflector rw with
    | error e' => rw [issueBuild_error (exec_fbuild_error hrefl _) rfl]; rfl
    | ok refl =>
      rw [issueBuild_done (exec_fbuild_ok hrefl _) rfl, Option.bind_some]
      cases hplug : buildPlugboard cap pairs with
      | error e' => exact issueBuild_error (exec_pbuild_error hplug _) rfl
      | ok plug =>
        have hcount : ¬ rots.length < Config.nMin := Nat.not_lt.2 hn
        simp [buildMachine, hcount, hrotors, hrefl, hplug] at h

end

/-- Settles O25: the program of builds and CONFIG end as `buildMachine` does. -/
theorem configIsItsMicroOperations : Obligations.ConfigIsItsMicroOperations := by
  intro s cap rots rw pairs hs hn hmax
  cases hb : buildMachine cap rots rw pairs with
  | ok m =>
    obtain ⟨t, ht, hcommit⟩ := issueBuilds_ok hs hmax hb
    refine ⟨fun t' ht' => ?_, fun hnone => by simp [ht] at hnone⟩
    obtain rfl : t = t' := Option.some.inj (ht.symm.trans ht')
    exact ⟨m, hcommit, exec_config_ok hmax hb⟩
  | error e =>
    refine ⟨fun t ht => by simp [issueBuilds_error hs hmax hn hb] at ht, fun _ => ?_⟩
    exact ⟨e.code, Status.code_ne_zero (buildMachine_error_ne_ok hb), exec_config_error hmax hb⟩

end Sys2Proof.Machine


/-! SUPPORT. What ENCS answers and what its answer says of the keystroke, its micro-operation program, and that a
response depends on the machine alone (45_enigma_engine.md R107, R110, R117), and the statements on a keystroke that
follow. -/

namespace Sys2Proof.Machine

/-! ### A symbol in a byte (30_encoding.md R45) -/

@[simp] theorem zext8_toNat (x : Symbol26) : (zext8 x).toNat = x.val := by
  rw [zext8, BitVec.toNat_ofNat]
  omega

@[simp] theorem symbolOfByte?_zext8 (x : Symbol26) : symbolOfByte? (zext8 x) = some x := by
  rw [symbolOfByte?_some (by rw [zext8_toNat]; omega)]
  simp

theorem zext8_of_symbolOfByte? {b : Byte} {x : Symbol26} (h : symbolOfByte? b = some x) : zext8 x = b :=
  BitVec.eq_of_toNat_eq (by rw [zext8_toNat, symbolOfByte?_val h])

theorem exists_zext8 {b : Byte} (h : b.toNat ≤ 25) : ∃ x, b = zext8 x :=
  ⟨_, (zext8_of_symbolOfByte? (symbolOfByte?_some h)).symm⟩

theorem zext8_injective : Function.Injective zext8 := fun x y h => by
  simpa using congrArg symbolOfByte? h

/-! ### ENCS (45_enigma_engine.md R110) -/

theorem exec_encs {s : State} {m : Enigma} (hs : s.lc = .ready m) (x : Symbol26) :
    exec (.encs (zext8 x)) s =
      .next { s with lc := .ready m.sstep, rsp := s.rsp ++ [[0x00, zext8 (m.keystroke x).2]] } := by
  rw [exec, execEncs, whenReady_ready hs, symbolOfByte?_zext8]
  rfl

/-- An answer of ENCS with status OK is a keystroke of the symbol given (45_enigma_engine.md R110). -/
theorem exec_encs_answer {s t : State} {m : Enigma} {a b : Byte} (hs : s.lc = .ready m)
    (h : exec (.encs a) s = .next t) (hr : t.rsp = s.rsp ++ [[0x00, b]]) :
    ∃ x, a = zext8 x ∧ b = zext8 (m.keystroke x).2 ∧ t.lc = .ready m.sstep := by
  cases ha : symbolOfByte? a with
  | none =>
    rw [exec, execEncs, whenReady_ready hs, ha] at h
    cases h
    simp at hr
  | some x =>
    obtain rfl := zext8_of_symbolOfByte? ha
    rw [exec_encs hs] at h
    cases h
    exact ⟨x, rfl, by simpa using hr.symm, rfl⟩

/-- Settles O45: the answer is the keystroke, which is the six steps. -/
theorem encsIsOneKeystroke : Obligations.EncsIsOneKeystroke :=
  fun _ _ x hs => exec_encs hs x

/-- Settles O53: both leave the machine after its SSTEP. -/
theorem keystrokePositionsIgnoreTheSymbol : Obligations.KeystrokePositionsIgnoreTheSymbol := by
  intro s t u m x y hs ht hu
  cases (exec_encs hs x).symm.trans ht
  cases (exec_encs hs y).symm.trans hu
  rfl

/-- Settles O44: SSTEP writes no table and PLUG no position. -/
theorem plugboardPassAndSteppingCommute : Obligations.PlugboardPassAndSteppingCommute :=
  fun _ m x hs => ⟨_, _, _, _, exec_plug hs x, exec_sstep hs, exec_sstep hs, exec_plug (m := m.sstep) rfl x, rfl, rfl⟩

/-! ### What R26 makes of a keystroke (45_enigma_engine.md R120, R122, R123) -/

theorem State.inv_wf {s : State} {m : Enigma} (h : s.inv = true) (hs : s.lc = .ready m) : m.wf s.cfg = true :=
  (s.inv_iff.1 h).2 m hs

/-- Settles O49: on symbols the keystroke is injective, and so surjective, and bytes 0 to 25 are the symbols. -/
theorem keystrokeIsABijection : Obligations.KeystrokeIsABijection := by
  intro s m hinv hs
  have hw := State.inv_wf hinv hs
  refine ⟨fun a ha => ?answered, fun t u a b y ht hty hu huy => ?injective, fun y hy => ?surjective⟩
  case answered =>
    obtain ⟨x, rfl⟩ := exists_zext8 ha
    exact ⟨_, _, exec_encs hs x, rfl, by rw [zext8_toNat]; omega⟩
  case injective =>
    obtain ⟨x, rfl, rfl, -⟩ := exec_encs_answer hs ht hty
    obtain ⟨z, rfl, hz, -⟩ := exec_encs_answer hs hu huy
    exact congrArg zext8 (Enigma.keystroke_injective hw (zext8_injective hz))
  case surjective =>
    obtain ⟨z, rfl⟩ := exists_zext8 hy
    obtain ⟨x, rfl⟩ := Enigma.keystroke_surjective hw z
    exact ⟨_, zext8 x, by rw [zext8_toNat]; omega, exec_encs hs x, rfl⟩

/-- Settles O50: from the same machine the keystroke of the answer gives the symbol back, after the same SSTEP. -/
theorem keystrokeIsSelfReciprocal : Obligations.KeystrokeIsSelfReciprocal := by
  intro s t m a b hinv hs hrecip ht hb
  obtain ⟨x, rfl, rfl, hlc⟩ := exec_encs_answer hs ht hb
  refine ⟨_, exec_encs hs _, ?_, hlc.symm⟩
  rw [Enigma.keystroke_keystroke (State.inv_wf hinv hs) hrecip]

/-- Settles O52: without a fixed point of the reflector the keystroke has none. -/
theorem noSymbolEncodesToItself : Obligations.NoSymbolEncodesToItself := by
  intro s t m a b hinv hs hfree ht hb
  obtain ⟨x, rfl, rfl, -⟩ := exec_encs_answer hs ht hb
  exact fun h => Enigma.keystroke_ne (State.inv_wf hinv hs) hfree x (zext8_injective h)

/-! ### ENCS as micro-operations (45_enigma_engine.md R107) -/

/-- A micro-operation that returns a symbol leaves the machine as it is (30_encoding.md R54). -/
theorem issueSymbol_of_exec {i : Instr} {s : State} {y : Symbol26}
    (h : exec i s = .next { s with busResult := some (.symbol y) }) :
    ∃ t, issueSymbol i s = some (t, y) ∧ t.lc = s.lc :=
  ⟨{ s with busResult := some (.symbol y) }, by simp only [issueSymbol, issue_eq_some.2 h], rfl⟩

/-- A traversal issued along rotors of the stack hands the symbol from one to the next. -/
theorem issueAlong_ready {m : Enigma} {op : Byte → Symbol26 → Instr} {cross : Rotor → Symbol26 → Symbol26}
    (hop : ∀ {s : State} {j : Byte} {r : Rotor}, s.lc = .ready m → m.stack[j.toNat]? = some r → ∀ x,
      exec (op j x) s = .next { s with busResult := some (.symbol (cross r x)) })
    {is : List Nat} {rs : List Rotor} (hrs : is.map (fun i => m.stack[i]?) = rs.map some) (his : ∀ i ∈ is, i ≤ 255)
    {s : State} (hs : s.lc = .ready m) (x : Symbol26) :
    ∃ t, issueAlong op is (s, x) = some (t, rs.foldl (fun y r => cross r y) x) ∧ t.lc = .ready m := by
  induction is generalizing rs s x with
  | nil =>
    obtain rfl : rs = [] := by simpa using hrs.symm
    exact ⟨s, rfl, hs⟩
  | cons i is ih =>
    cases rs with
    | nil => cases hrs
    | cons r rs =>
      obtain ⟨hr, hrs⟩ := List.cons.inj hrs
      rw [← countByte_toNat (his i List.mem_cons_self)] at hr
      obtain ⟨u, hu, hlc⟩ := issueSymbol_of_exec (hop hs hr x)
      obtain ⟨t, ht, hready⟩ := ih hrs (fun k hk => his k (List.mem_cons_of_mem _ hk)) (hlc.trans hs) (cross r x)
      refine ⟨t, ?_, hready⟩
      simp only [issueAlong, hu, ht, List.foldl_cons]

/-- With R26 the indices below `N` name the rotors of the stack in order (10_state.md R13, R26). -/
theorem Enigma.wf_range_stack {cfg : Config} {m : Enigma} (h : m.wf cfg = true) :
    (List.range m.n.toNat).map (fun i => m.stack[i]?) = m.stack.map some := by
  have hlen : m.stack.length = m.n.toNat := by rw [Enigma.wf_stack h, (Enigma.wf_length h).1]
  apply List.ext_getElem (by simp [hlen])
  intro i hi hi'
  rw [List.length_map] at hi'
  simp [List.getElem?_eq_getElem hi']

section
variable {cfg : Config} {m : Enigma} {s : State}

/-- TRAVF issued along the whole stack is the forward pass (45_enigma_engine.md R110 step 3). -/
theorem issueAlong_travf (hw : m.wf cfg = true) (hs : s.lc = .ready m) (x : Symbol26) :
    ∃ t, issueAlong .travf (List.range m.n.toNat) (s, x) = some (t, forwardPass m.stack x) ∧ t.lc = .ready m :=
  issueAlong_ready exec_travf (Enigma.wf_range_stack hw)
    (fun _ hi => (List.mem_range.1 hi).le.trans (byte_toNat_le m.n)) hs x

/-- TRAVB issued back along the whole stack is the backward pass (45_enigma_engine.md R110 step 5). -/
theorem issueAlong_travb (hw : m.wf cfg = true) (hs : s.lc = .ready m) (x : Symbol26) :
    ∃ t, issueAlong .travb (List.range m.n.toNat).reverse (s, x) = some (t, backwardPass m.stack x) ∧
      t.lc = .ready m := by
  have hback : backwardPass m.stack x = m.stack.reverse.foldl (fun y r => r.travb y) x := by
    rw [List.foldl_reverse]
    rfl
  rw [hback]
  refine issueAlong_ready exec_travb ?_ (fun i hi => ?_) hs x
  · rw [List.map_reverse, Enigma.wf_range_stack hw, List.map_reverse]
  · exact (List.mem_range.1 (List.mem_reverse.1 hi)).le.trans (byte_toNat_le m.n)

/-- The program of a keystroke, unit by unit: it returns the symbol of the keystroke and leaves its machine. -/
theorem issueKeystroke_ready (hw : m.wf cfg = true) (hs : s.lc = .ready m) (x : Symbol26) :
    ∃ t, issueKeystroke m.n.toNat x s = some (t, (m.keystroke x).2) ∧ t.lc = .ready m.sstep := by
  have hw' := Enigma.wf_sstep hw
  obtain ⟨s₁, hplug, h₁⟩ := issueSymbol_of_exec (exec_plug hs x)
  obtain ⟨s₂, hstep, h₂⟩ : ∃ t, issue .sstep s₁ = some t ∧ t.lc = .ready m.sstep :=
    ⟨_, issue_eq_some.2 (exec_sstep (h₁.trans hs)), rfl⟩
  obtain ⟨s₃, hforward, h₃⟩ := issueAlong_travf hw' h₂ (m.plugPass x)
  generalize hy : forwardPass m.sstep.stack (m.plugPass x) = y at hforward
  obtain ⟨s₄, hrefl, h₄⟩ := issueSymbol_of_exec (exec_refl h₃ y)
  obtain ⟨s₅, hback, h₅⟩ := issueAlong_travb hw' (h₄.trans h₃) (m.sstep.reflect y)
  generalize hz : backwardPass m.sstep.stack (m.sstep.reflect y) = z at hback
  obtain ⟨s₆, hplug', h₆⟩ := issueSymbol_of_exec (exec_plug h₅ z)
  rw [Enigma.sstep_n] at hforward hback
  refine ⟨s₆, ?_, h₆.trans h₅⟩
  rw [Enigma.keystroke_symbol, Enigma.signalPath, hy, hz]
  simp only [issueKeystroke, Option.bind_eq_bind, Option.bind_some, hplug, hstep, hforward, hrefl, hback, hplug']

end

/-- Settles O48: the program and ENCS are both the keystroke of the machine. -/
theorem encsIsItsMicroOperations : Obligations.EncsIsItsMicroOperations := by
  intro s m x hinv hs
  obtain ⟨t, ht, hlc⟩ := issueKeystroke_ready (State.inv_wf hinv hs) hs x
  exact ⟨t, _, _, ht, exec_encs hs x, rfl, hlc.symm⟩

/-! ### A response depends on the machine alone (45_enigma_engine.md R117) -/

/-- Two outcomes, from two blocks, with one response frame and one machine or none. -/
def SameAnswer (s s' : State) (r r' : Result) : Prop :=
  ∃ t t' f, r = .next t ∧ r' = .next t' ∧ t.rsp = s.rsp ++ [f] ∧ t'.rsp = s'.rsp ++ [f] ∧ t.lc = t'.lc

section
variable {s s' : State}

theorem sameAnswer_respond {u u' : State} (hr : u.rsp = s.rsp) (hr' : u'.rsp = s'.rsp) (hlc : u.lc = u'.lc)
    (f : Frame) : SameAnswer s s' (.next (u.respond f)) (.next (u'.respond f)) :=
  ⟨_, _, f, rfl, rfl, congrArg (· ++ [f]) hr, congrArg (· ++ [f]) hr', hlc⟩

theorem sameAnswer_raise (hlc : s.lc = s'.lc) (e : Status) :
    SameAnswer s s' (.next (s.raise e)) (.next (s'.raise e)) :=
  sameAnswer_respond rfl rfl hlc _

theorem sameAnswer_answer (hlc : s.lc = s'.lc) (b : List Byte) :
    SameAnswer s s' (.next (s.answer b)) (.next (s'.answer b)) :=
  sameAnswer_respond rfl rfl hlc _

theorem sameAnswer_setMachine (m : Enigma) (f : Frame) :
    SameAnswer s s' (.next ((s.setMachine m).respond f)) (.next ((s'.setMachine m).respond f)) :=
  sameAnswer_respond (u := s.setMachine m) (u' := s'.setMachine m) rfl rfl rfl f

theorem sameAnswer_whenReady (hlc : s.lc = s'.lc) {k k' : Enigma → Result} (hk : ∀ m, SameAnswer s s' (k m) (k' m)) :
    SameAnswer s s' (s.whenReady k) (s'.whenReady k') := by
  cases hs : s.lc with
  | unconfigured =>
    rw [whenReady_unconfigured hs, whenReady_unconfigured (hlc ▸ hs)]
    exact sameAnswer_raise hlc _
  | ready m =>
    rw [whenReady_ready hs, whenReady_ready (hlc ▸ hs)]
    exact hk m

/-- By command: each reads the operands, the parameters and the machine, and no other field. -/
theorem exec_host_sameAnswer {i : Instr} (hi : i.isHost = true) (hlc : s.lc = s'.lc) (hcfg : s.cfg = s'.cfg) :
    SameAnswer s s' (exec i s) (exec i s') := by
  cases i with
  | config cap rots rw pairs =>
    simp only [exec, execConfig, hcfg]
    split
    · exact sameAnswer_raise hlc _
    · cases buildMachine cap rots rw pairs with
      | error e => exact sameAnswer_respond (u := s.destroy) (u' := s'.destroy) rfl rfl rfl _
      | ok m => exact sameAnswer_respond (u := s.destroy.setMachine m) (u' := s'.destroy.setMachine m) rfl rfl rfl _
  | encs ss =>
    refine sameAnswer_whenReady hlc fun m => ?_
    cases symbolOfByte? ss with
    | none => exact sameAnswer_raise hlc _
    | some x => exact sameAnswer_setMachine _ _
  | encc cc =>
    refine sameAnswer_whenReady hlc fun m => ?_
    rw [hcfg]
    cases m.encodeChar s'.cfg cc with
    | none => exact sameAnswer_raise hlc _
    | some p => exact sameAnswer_setMachine _ _
  | encm cs =>
    refine sameAnswer_whenReady hlc fun m => ?_
    rw [hcfg]
    exact sameAnswer_setMachine _ _
  | setpos ps =>
    refine sameAnswer_whenReady hlc fun m => ?_
    split
    · cases symbolsOfBytes? ps with
      | none => exact sameAnswer_raise hlc _
      | some xs => exact sameAnswer_setMachine _ _
    · exact sameAnswer_raise hlc _
  | getpos | getring => exact sameAnswer_whenReady hlc fun m => sameAnswer_answer hlc _
  | _ => cases hi

end

/-- Settles O47: every host command answers alike on blocks that agree in all it reads. -/
theorem responseDependsOnTheMachineAlone : Obligations.ResponseDependsOnTheMachineAlone :=
  fun _ _ _ hi => exec_host_sameAnswer hi

end Sys2Proof.Machine


/-! SUPPORT. What GETPOS, GETRING and SETPOS answer, and what ENCC and ENCM answer by the outcome of their characters
(45_enigma_engine.md R112 to R116), and the statements on registers, characters and messages that follow. -/

namespace Sys2Proof.Machine

/-! ### GETPOS and GETRING (45_enigma_engine.md R114, R116) -/

section
variable {cfg : Config} {s : State} {m : Enigma}

/-- With R26 the rotors below `N` are all of them. -/
theorem exec_getpos (hw : m.wf cfg = true) (hs : s.lc = .ready m) :
    exec .getpos s = .next { s with rsp := s.rsp ++ [0x00 :: m.positions.map zext8] } := by
  rw [exec, execGetpos, whenReady_ready hs, Enigma.wf_stack hw, Enigma.positions, List.map_map]
  rfl

theorem exec_getring (hw : m.wf cfg = true) (hs : s.lc = .ready m) :
    exec .getring s = .next { s with rsp := s.rsp ++ [0x00 :: m.rotors.map fun r => zext8 r.ring] } := by
  rw [exec, execGetring, whenReady_ready hs, Enigma.wf_stack hw]
  rfl

theorem Enigma.wf_positions_length (hw : m.wf cfg = true) : m.positions.length = m.n.toNat := by
  rw [Enigma.positions, List.length_map, (Enigma.wf_length hw).1]

end

/-- Settles O59: with R26 both commands read every rotor of the stack once, and byte `i` is read off rotor `i`. -/
theorem getposAndGetringReturnTheRegisters : Obligations.GetposAndGetringReturnTheRegisters := by
  intro s m hinv hs
  have hw := State.inv_wf hinv hs
  refine ⟨_, _, exec_getpos hw hs, exec_getring hw hs, ?positions, ?rings, fun i b c hb hc => ?registers⟩
  case positions => rw [List.length_map, Enigma.wf_positions_length hw]
  case rings => rw [List.length_map, (Enigma.wf_length hw).1]
  case registers =>
    rw [Enigma.positions, List.map_map, List.getElem?_map, Option.map_eq_some_iff] at hb
    rw [List.getElem?_map, Option.map_eq_some_iff] at hc
    obtain ⟨r, hr, rfl⟩ := hb
    obtain ⟨r', hr', rfl⟩ := hc
    obtain rfl : r = r' := Option.some.inj (hr.symm.trans hr')
    exact ⟨r, hr, zext8_toNat _, zext8_toNat _⟩

/-! ### SETPOS (45_enigma_engine.md R115) -/

theorem symbolsOfBytes?_map_zext8 (xs : List Symbol26) : symbolsOfBytes? (xs.map zext8) = some xs := by
  induction xs with
  | nil => rfl
  | cons x xs ih => simp [symbolsOfBytes?, ih]

theorem exists_map_zext8 {bs : List Byte} (h : ∀ b ∈ bs, b.toNat ≤ 25) : ∃ xs : List Symbol26, bs = xs.map zext8 := by
  induction bs with
  | nil => exact ⟨[], rfl⟩
  | cons b bs ih =>
    obtain ⟨x, rfl⟩ := exists_zext8 (h b List.mem_cons_self)
    obtain ⟨xs, rfl⟩ := ih fun c hc => h c (List.mem_cons_of_mem _ hc)
    exact ⟨x :: xs, rfl⟩

theorem symbolsOfBytes?_none {bs : List Byte} (h : ∃ b ∈ bs, 25 < b.toNat) : symbolsOfBytes? bs = none := by
  induction bs with
  | nil => simp at h
  | cons b bs ih =>
    simp only [symbolsOfBytes?]
    cases hb : symbolOfByte? b with
    | none => rfl
    | some x =>
      have hx := symbolOfByte?_val hb
      have hrest : ∃ c ∈ bs, 25 < c.toNat := by
        obtain ⟨c, hc, hlt⟩ := h
        rcases List.mem_cons.1 hc with rfl | hc
        · omega
        · exact ⟨c, hc, hlt⟩
      simp only [ih hrest]

section
variable {s : State} {m : Enigma}

theorem exec_setpos {xs : List Symbol26} (hs : s.lc = .ready m) (hlen : xs.length = m.n.toNat) :
    exec (.setpos (xs.map zext8)) s = .next { s with
      lc := .ready { m with rotors := setPositions xs m.rotors }
      rsp := s.rsp ++ [[0x00]] } := by
  rw [exec, execSetpos, whenReady_ready hs, List.length_map, if_pos hlen, symbolsOfBytes?_map_zext8]
  rfl

theorem exec_setpos_range {ps : List Byte} (hs : s.lc = .ready m) (hlen : ps.length = m.n.toNat)
    (h : ∃ p ∈ ps, 25 < p.toNat) : exec (.setpos ps) s = .next { s with rsp := s.rsp ++ [[0x12]] } := by
  rw [exec, execSetpos, whenReady_ready hs, if_pos hlen, symbolsOfBytes?_none h]
  rfl

end

/-- Settles O60, by the operands: symbols, one for each rotor, are the new positions; other bytes change nothing. -/
theorem setposWritesAllPositionsOrNone : Obligations.SetposWritesAllPositionsOrNone := by
  intro s m ps hinv hs
  have hw := State.inv_wf hinv hs
  refine ⟨fun hlen hps => ?legal, exec_setpos_range hs, execSetpos_wrongLength hs⟩
  case legal =>
    obtain ⟨xs, rfl⟩ := exists_map_zext8 hps
    rw [List.length_map] at hlen
    have hpos : Enigma.positions { m with rotors := setPositions xs m.rotors } = xs :=
      setPositions_pos xs m.rotors (hlen.trans (Enigma.wf_length hw).1.symm)
    refine ⟨_, exec_setpos hs hlen, ⟨rfl, rfl, rfl, rfl, setPositions_constants xs m.rotors⟩, ?written, ?readBack⟩
    case written => rw [hpos, List.map_map]; simp
    case readBack => rw [exec_getpos (Enigma.wf_setPositions hw xs) rfl, hpos]

/-! ### ENCC (45_enigma_engine.md R112) -/

section
variable {s : State} {m m' : Enigma} {c d : Byte}

theorem exec_encc_some (hs : s.lc = .ready m) (h : m.encodeChar s.cfg c = some (m', d)) :
    exec (.encc c) s = .next { s with lc := .ready m', rsp := s.rsp ++ [[0x00, d]] } := by
  rw [exec, execEncc, whenReady_ready hs, h]
  rfl

theorem exec_encc_none (hs : s.lc = .ready m) (h : m.encodeChar s.cfg c = none) :
    exec (.encc c) s = .next { s with rsp := s.rsp ++ [[0x30]] } := by
  rw [exec, execEncc, whenReady_ready hs, h]
  rfl

end

theorem isLetter_iff {c : Byte} : Config.isLetter c = true ↔ 0x41 ≤ c.toNat ∧ c.toNat ≤ 0x5A := by
  simp [Config.isLetter]

theorem isDigit_iff {c : Byte} : Config.isDigit c = true ↔ 0x30 ≤ c.toNat ∧ c.toNat ≤ 0x39 := by
  simp [Config.isDigit]

theorem base_add_zext8 (x : Symbol26) : 0x41 + zext8 x = symbolLetter x := by
  apply BitVec.eq_of_toNat_eq
  rw [BitVec.toNat_add, zext8_toNat, symbolLetter, BitVec.toNat_ofNat]
  rfl

/-- The symbol of a letter in a byte (30_encoding.md R45, R46). -/
theorem sub_base_of_letter {c : Byte} {x : Symbol26} (h : letterSymbol? c = some x) : c - 0x41 = zext8 x := by
  rw [← symbolLetter_of h, ← base_add_zext8, add_sub_cancel_left]

/-- Settles O54, by the class of the character: ENCC and ENCS of a letter are one keystroke, and no other takes one. -/
theorem enccByCharacterClass : Obligations.EnccByCharacterClass := by
  intro s m c hs
  refine ⟨fun hlo hhi => ?letter, fun hl hp => ?passes, fun hl ho => ?other⟩
  case letter =>
    obtain ⟨x, hx⟩ := Option.isSome_iff_exists.1 ((letterSymbol?_isSome c).trans (isLetter_iff.2 ⟨hlo, hhi⟩))
    refine ⟨_, _, sub_base_of_letter hx ▸ exec_encs hs x, rfl, ?_⟩
    rw [exec_encc_some hs (Enigma.encodeChar_letter s.cfg m hx), base_add_zext8]
  all_goals rw [← isLetter_iff, Bool.not_eq_true] at hl
  case passes =>
    rw [← isDigit_iff] at hp
    rw [exec_encc_some hs (Enigma.encodeChar_passes s.cfg m hl hp), ← hs]
  case other =>
    rw [← isDigit_iff, not_or, Bool.not_eq_true] at ho
    exact exec_encc_none hs (Enigma.encodeChar_other s.cfg m (by simp [isOther, hl, ho]))

/-! ### ENCM (45_enigma_engine.md R113) -/

section
variable {s : State} {m m' : Enigma} {cs out : List Byte}

theorem exec_encm_complete (hs : s.lc = .ready m) (h : m.encodeChars s.cfg cs = ⟨m', out, true⟩) :
    exec (.encm cs) s =
      .next { s with lc := .ready m', rsp := s.rsp ++ [0x00 :: countByte out.length :: out] } := by
  rw [exec_encm hs, h]
  rfl

theorem exec_encm_incomplete (hs : s.lc = .ready m) (h : m.encodeChars s.cfg cs = ⟨m', out, false⟩) :
    exec (.encm cs) s =
      .next { s with lc := .ready m', rsp := s.rsp ++ [0x30 :: countByte out.length :: out] } := by
  rw [exec_encm hs, h]
  rfl

/-- An answer of ENCM with status OK is the encoding of every character (30_encoding.md R53). -/
theorem exec_encm_answer {t : State} {ll : Byte} (hs : s.lc = .ready m) (h : exec (.encm cs) s = .next t)
    (hr : t.rsp = s.rsp ++ [0x00 :: ll :: out]) :
    ∃ m', m.encodeChars s.cfg cs = ⟨m', out, true⟩ ∧ ll = countByte out.length ∧
      t = { s with lc := .ready m', rsp := s.rsp ++ [0x00 :: ll :: out] } := by
  obtain ⟨-, -, hout, hst⟩ := exec_encm_response hs h hr
  have he : m.encodeChars s.cfg cs = ⟨(m.encodeChars s.cfg cs).machine, out, true⟩ := by
    rw [← hout, ← complete_of_status hst]
  cases (exec_encm_complete hs he).symm.trans h
  obtain rfl : countByte out.length = ll := by simpa using hr
  exact ⟨_, he, rfl, rfl⟩

end

/-- Settles O57: the letters alone are encoded to the letters of the output, and by the same keystrokes. -/
theorem passThroughCharactersDoNotStep : Obligations.PassThroughCharactersDoNotStep := by
  intro s t m cs out ll hs ht hout
  obtain ⟨m', he, -, rfl⟩ := exec_encm_answer hs ht hout
  have hletters := m.encodeChars_filter s.cfg cs (by rw [he])
  rw [he] at hletters
  exact ⟨_, _, exec_encm_complete hs hletters, rfl, rfl⟩

/-- Settles O58: the characters before are complete, and the encoding of the rest ends where it starts. -/
theorem unencodableKeepsTheWorkBefore : Obligations.UnencodableKeepsTheWorkBefore := by
  intro s t m a b outA c la hs hc ht hout
  obtain ⟨m', he, rfl, rfl⟩ := exec_encm_answer hs ht hout
  have hcomplete : (m.encodeChars s.cfg a).complete = true := by rw [he]
  have hall : m.encodeChars s.cfg (a ++ c :: b) = ⟨m', outA, false⟩ := by
    rw [m.encodeChars_append s.cfg a _ hcomplete, he, Enigma.encodeChars_none (Enigma.encodeChar_other s.cfg m' hc),
      List.append_nil]
  refine ⟨exec_encm_incomplete hs hall, fun hlen => ?_⟩
  have hcount := m.encodeChars_length s.cfg a hcomplete
  rw [he] at hcount
  rw [hcount, countByte_toNat hlen]

/-- Settles O51: SETPOS restores the machine the message started from, and from there the output is encoded back. -/
theorem messagesAreSelfReciprocal : Obligations.MessagesAreSelfReciprocal := by
  intro s t m cs out ll hinv hs hrecip ht hout
  have hw := State.inv_wf hinv hs
  obtain ⟨m', he, rfl, rfl⟩ := exec_encm_answer hs ht hout
  have hcomplete : (m.encodeChars s.cfg cs).complete = true := by rw [he]
  have hconst := m.encodeChars_sameConstants s.cfg cs
  have hcount := m.encodeChars_length s.cfg cs hcomplete
  have hback := m.encodeChars_reciprocal s.cfg cs hw hrecip hcomplete
  rw [he] at hconst hcount hback
  have hn : m'.n = m.n := hconst.1
  have hset := exec_setpos (xs := m.positions)
    (s := { s with lc := .ready m', rsp := s.rsp ++ [0x00 :: countByte out.length :: out] }) rfl
    (by rw [Enigma.wf_positions_length hw, hn])
  rw [Enigma.restore hconst] at hset
  refine ⟨_, _, hset, exec_encm_complete rfl hback, ?_, rfl⟩
  rw [hcount]

/-! ### ENCM as a loop of ENCC (45_enigma_engine.md R113) -/

section
variable {s : State} {m m' : Enigma} {c d : Byte}

theorem enccLoop_some (hs : s.lc = .ready m) (h : m.encodeChar s.cfg c = some (m', d)) (cs : List Byte) :
    ∃ t, t.lc = .ready m' ∧ t.cfg = s.cfg ∧
      enccLoop s (c :: cs) = ((enccLoop t cs).1, d :: (enccLoop t cs).2.1, (enccLoop t cs).2.2) := by
  refine ⟨{ s with lc := .ready m', rsp := s.rsp ++ [[0x00, d]] }, rfl, rfl, ?_⟩
  simp [enccLoop, issue_eq_some.2 (exec_encc_some hs h), Status.code]

theorem enccLoop_none (hs : s.lc = .ready m) (h : m.encodeChar s.cfg c = none) (cs : List Byte) :
    enccLoop s (c :: cs) = (s, [], false) := by
  simp [enccLoop, issue_eq_some.2 (exec_encc_none hs h)]

end

/-- The loop ends where the encoding of the characters ends. -/
theorem enccLoop_encodeChars {s : State} {m : Enigma} (hs : s.lc = .ready m) (cs : List Byte) :
    (enccLoop s cs).1.lc = .ready (m.encodeChars s.cfg cs).machine ∧
      (enccLoop s cs).2.1 = (m.encodeChars s.cfg cs).out ∧ (enccLoop s cs).2.2 = (m.encodeChars s.cfg cs).complete := by
  induction cs generalizing s m with
  | nil => exact ⟨hs, rfl, rfl⟩
  | cons c cs ih =>
    cases hc : m.encodeChar s.cfg c with
    | none =>
      rw [enccLoop_none hs hc, Enigma.encodeChars_none hc]
      exact ⟨hs, rfl, rfl⟩
    | some p =>
      obtain ⟨m', d⟩ := p
      obtain ⟨t, ht, hcfg, hloop⟩ := enccLoop_some hs hc cs
      obtain ⟨hlc, hout, hcomplete⟩ := ih ht
      rw [hcfg] at hlc hout hcomplete
      rw [hloop, Enigma.encodeChars_some hc]
      exact ⟨hlc, congrArg (d :: ·) hout, hcomplete⟩

/-- Settles O55: the loop and ENCM are both the encoding of the characters. -/
theorem encmIsALoopOfEncc : Obligations.EncmIsALoopOfEncc := by
  intro s m cs hs
  obtain ⟨hlc, hout, hcomplete⟩ := enccLoop_encodeChars hs cs
  rw [exec_encm hs, hlc, hout, hcomplete]
  rfl

end Sys2Proof.Machine


/-! SUPPORT. What the builds do with illegal operands: each raises an error of its class, and CONFIG one of its components'
or TooFewRotors (60_exceptions.md R127, R128, R133, R135), and the statements of 60_exceptions.md that follow. -/

namespace Sys2Proof.Machine

/-- Settles O9: with no transaction and no input there is nothing to fetch. -/
theorem idleBlockHoldsItsState : Obligations.IdleBlockHoldsItsState :=
  fun _ hbus hinputs => step_idle hbus hinputs

/-! ### A build completes on legal operands only (60_exceptions.md R127) -/

theorem buildRotor_illegal {r : RotorRecord} (h : ¬ LegalRecord r) : ∃ e, buildRotor r = .error e := by
  cases hb : buildRotor r with
  | ok rotor => exact absurd (buildRotor_spec hb).1 h
  | error e => exact ⟨e, rfl⟩

theorem buildReflector_illegal {rw : Wiring} (h : ¬ LegalWiring rw) : ∃ e, buildReflector rw = .error e := by
  cases hb : buildReflector rw with
  | ok t => exact absurd (buildReflector_spec hb).1 h
  | error e => exact ⟨e, rfl⟩

/-- Settles O29: an illegal operand stops its build, with an error of its class, and the bus reports what the build
raised. -/
theorem failedBuildLeavesNothing : Obligations.FailedBuildLeavesNothing := by
  refine ⟨fun s j r hj hillegal => ?rbuild, fun s rw hillegal => ?fbuild, fun s cap pairs hillegal => ?pbuild⟩
  case rbuild =>
    obtain ⟨e, hb⟩ := buildRotor_illegal hillegal
    exact ⟨e, exec_rbuild_error hj hb, buildRotor_error hb⟩
  case fbuild =>
    obtain ⟨e, hb⟩ := buildReflector_illegal hillegal
    exact ⟨e, exec_fbuild_error hb s, buildReflector_error hb⟩
  case pbuild =>
    obtain ⟨e, hb, -⟩ := buildPlugboard_illegal hillegal
    exact ⟨e, exec_pbuild_error hb s, buildPlugboard_error hb⟩

/-! ### CONFIG with illegal operands (60_exceptions.md R135) -/

section
variable {cap : Byte} {rots : List RotorRecord} {rw : Wiring} {pairs : List Pair}

/-- A whole machine is built from legal operands only; `buildMachine_complete` is the converse. -/
theorem buildMachine_legal {m : Enigma} (h : buildMachine cap rots rw pairs = .ok m) :
    3 ≤ rots.length ∧ (∀ r ∈ rots, LegalRecord r) ∧ LegalWiring rw ∧ LegalPairs cap pairs := by
  obtain ⟨-, -, hn, hrotors, hrefl, hplug⟩ := buildMachine_ok h
  refine ⟨hn, fun r hr => ?_, (buildReflector_spec hrefl).1, (buildPlugboard_spec hplug).1⟩
  obtain ⟨k, hk⟩ := List.mem_iff_getElem?.1 hr
  obtain ⟨rotor, -, hb⟩ := built_getElem? hrotors hk
  exact (buildRotor_spec hb).1

/-- The errors the builds of CONFIG can end with (60_exceptions.md R127, R128). -/
theorem buildMachine_error_class {e : Status} (h : buildMachine cap rots rw pairs = .error e) :
    e = .tooFewRotors ∨ isBuildConfigurationError e = true ∨ isPlugboardError e = true := by
  rcases buildMachine_error h with ⟨-, he⟩ | ⟨-, ⟨-, r, -, hrotor⟩ | hrefl | hplug⟩
  · exact .inl he
  · exact .inr (.inl (buildRotor_error hrotor))
  · obtain rfl | rfl := buildReflector_error hrefl <;> exact .inr (.inl rfl)
  · exact .inr (.inr (buildPlugboard_error hplug))

end

/-- Settles O21: no machine is built from illegal operands, so CONFIG ends with the error of its builds. -/
theorem failedConfigLeavesNoMachine : Obligations.FailedConfigLeavesNoMachine := by
  intro s cap rots rw pairs hmax hillegal
  cases hb : buildMachine cap rots rw pairs with
  | ok m => exact absurd (buildMachine_legal hb) hillegal
  | error e => exact ⟨e, exec_config_error hmax hb, buildMachine_error_class hb⟩

end Sys2Proof.Machine


/-! SUPPORT. What reset and a reset pulse leave, and the statements of 70_reset_and_hazards.md. -/

namespace Sys2Proof.Machine

/-- The empty staging copy has no reflector table to commit (10_state.md R21, R24). -/
@[simp] theorem Staging.commit_empty (n : Byte) : Staging.empty.commit n = none := rfl

/-- With the bus idle a pulse writes `LC`, the staging copy and the unit result only (70_reset_and_hazards.md R146). -/
theorem State.applyRst_of_bus_idle {s : State} (hb : s.bus = []) :
    s.applyRst = { s with lc := .unconfigured, staging := Staging.empty, busResult := none } := by
  simp only [State.applyRst, State.destroy, hb]

/-- Settles O1: reset gives each field its value, and the staging copy among them is the empty one. -/
theorem resetHoldsNoMachine : Obligations.ResetHoldsNoMachine :=
  ⟨rfl, Staging.commit_empty, rfl, rfl, rfl, rfl⟩

/-- Settles O2: with the bus idle the step takes the pulse, and the pulse finds the bus empty already. -/
theorem resetPulseDestroysTheMachine : Obligations.ResetPulseDestroysTheMachine := by
  intro s rest hb hin
  rw [step_rst hb hin, State.applyRst_of_bus_idle (s := { s with inputs := rest }) hb]

end Sys2Proof.Machine
